-- ==== Sys2Proof/Word.lean ====
section
/-! DEFINITION. The two word types of the BPU: the 8-bit byte and the 32-bit command or response word
(spec/00_scope.md R5 `BYTE_W`, `CMD_W`; R8: every value is an unsigned integer, bit 0 least significant). -/

namespace Sys2Proof

/-- A byte: a payload byte, a symbol, a codeword length byte, a codeword value byte, the count T
(00_scope.md R5 `BYTE_W` = `SYM_W` = `T_W` = 8). -/
abbrev Byte := BitVec 8

/-- A command word or a response word (00_scope.md R5 `CMD_W` = 32; 30_encoding.md R80, R87). -/
abbrev Word := BitVec 32

end Sys2Proof
end

