-- ==== Sys2Proof/Syntax.lean ====
section
/-! DEFINITION. The ten commands of BPU-CS v1 as an inductive type, one constructor per row of
spec/opcode_table.json (spec/30_encoding.md R82). An operand is a whole 8-bit field of the command word, and the
decoder checks no operand value (R83, R84: "an `LDE` with length 0 or 200 decodes as `LDE`"), so every term of the
type is an instruction the engine takes: the type itself is the well-formedness of an instruction. -/

namespace Sys2Proof

/-- A decoded command (30_encoding.md R82). -/
inductive Instr where
  /-- `NOP`, opcode 0x00, format Z (40_control_and_table.md R110). -/
  | nop
  /-- `CLR`, opcode 0x01, format Z (40_control_and_table.md R111). -/
  | clr
  /-- `LDE sym, len, val`, opcode 0x02, format E: the three bytes of a header triple
  (40_control_and_table.md R113). -/
  | lde (sym len val : Byte)
  /-- `SETT t`, opcode 0x03, format V: the total symbol count T (42_unpack.md R145). -/
  | sett (t : Byte)
  /-- `PSYM sym`, opcode 0x04, format S (41_pack.md R131). -/
  | psym (sym : Byte)
  /-- `PFLUSH`, opcode 0x05, format Z (41_pack.md R132). -/
  | pflush
  /-- `UBYTE b`, opcode 0x06, format V: one payload byte (42_unpack.md R150). -/
  | ubyte (b : Byte)
  /-- `UEND`, opcode 0x07, format Z (42_unpack.md R153). -/
  | uend
  /-- `RDSTAT`, opcode 0x08, format Z (40_control_and_table.md R114). -/
  | rdstat
  /-- `RDERR`, opcode 0x09, format Z (40_control_and_table.md R115). -/
  | rderr
  deriving DecidableEq, Repr

end Sys2Proof
end

