-- ==== Sys2Proof/Decode.lean ====
section
/-! DEFINITION. The command word (spec/30_encoding.md R80 to R86): its fields, its four formats, the table of the ten
commands, the decoder (total; an Illegal word is `none`) and the encoder. -/

namespace Sys2Proof

/-- `w = op ++ A ++ B ++ C` (30_encoding.md R80). -/
def wordOf (op a b c : Byte) : Word := op ++ a ++ b ++ c

/-- `op = w[31:24]` (R80). -/
def opField (w : Word) : Byte := w.extractLsb' 24 8

/-- `A = w[23:16]` (R80, R83). -/
def aField (w : Word) : Byte := w.extractLsb' 16 8

/-- `B = w[15:8]` (R80, R83). -/
def bField (w : Word) : Byte := w.extractLsb' 8 8

/-- `C = w[7:0]` (R80, R83). -/
def cField (w : Word) : Byte := w.extractLsb' 0 8

/-- The four formats (30_encoding.md R81). -/
inductive Format where
  /-- No operand; A, B, C must be 0. -/
  | Z
  /-- A = symbol; B, C must be 0. -/
  | S
  /-- C = value; A, B must be 0. -/
  | V
  /-- A = symbol, B = length, C = value. -/
  | E
  deriving DecidableEq, Repr

/-- Every field the format does not use is 0 (30_encoding.md R81, R86). -/
def unusedFieldsZero (f : Format) (a b c : Byte) : Bool :=
  match f with
  | .Z => a == 0 && b == 0 && c == 0
  | .S => b == 0 && c == 0
  | .V => a == 0 && b == 0
  | .E => true

/-- The format of an assigned opcode; `none` for 0x0A to 0xFF (30_encoding.md R82, R85). -/
def formatOf (op : Byte) : Option Format :=
  if op = 0x00 then some .Z
  else if op = 0x01 then some .Z
  else if op = 0x02 then some .E
  else if op = 0x03 then some .V
  else if op = 0x04 then some .S
  else if op = 0x05 then some .Z
  else if op = 0x06 then some .V
  else if op = 0x07 then some .Z
  else if op = 0x08 then some .Z
  else if op = 0x09 then some .Z
  else none

/-- The command of an opcode with its operand fields (30_encoding.md R82, R83); `none` for an unassigned opcode. -/
def commandOf (op a b c : Byte) : Option Instr :=
  if op = 0x00 then some .nop
  else if op = 0x01 then some .clr
  else if op = 0x02 then some (.lde a b c)
  else if op = 0x03 then some (.sett c)
  else if op = 0x04 then some (.psym a)
  else if op = 0x05 then some .pflush
  else if op = 0x06 then some (.ubyte c)
  else if op = 0x07 then some .uend
  else if op = 0x08 then some .rdstat
  else if op = 0x09 then some .rderr
  else none

/-- The decoder (30_encoding.md R84), step by step: take the fields; an unassigned opcode is Illegal; a nonzero field
the format does not use is Illegal; otherwise the word is the command. `none` is Illegal. -/
def decode (w : Word) : Option Instr :=
  match formatOf (opField w) with
  | none => none
  | some f =>
    if unusedFieldsZero f (aField w) (bField w) (cField w) then
      commandOf (opField w) (aField w) (bField w) (cField w)
    else none

/-- The word of a command: its opcode and its fields, unused fields 0 (30_encoding.md R82, and R91's column "word"). -/
def encode : Instr → Word
  | .nop => wordOf 0x00 0 0 0
  | .clr => wordOf 0x01 0 0 0
  | .lde sym len val => wordOf 0x02 sym len val
  | .sett t => wordOf 0x03 0 0 t
  | .psym sym => wordOf 0x04 sym 0 0
  | .pflush => wordOf 0x05 0 0 0
  | .ubyte b => wordOf 0x06 0 0 b
  | .uend => wordOf 0x07 0 0 0
  | .rdstat => wordOf 0x08 0 0 0
  | .rderr => wordOf 0x09 0 0 0

/-- A row of the opcode table: `w & mask == pattern` (30_encoding.md R82, columns "match" and "mask"). -/
structure OpRow where
  pattern : Word
  mask : Word
  deriving DecidableEq, Repr

/-- The ten rows in opcode order, as R82 and spec/opcode_table.json give them. -/
def opcodeTable : List OpRow :=
  [ ⟨0x00000000, 0xFFFFFFFF⟩, ⟨0x01000000, 0xFFFFFFFF⟩, ⟨0x02000000, 0xFF000000⟩, ⟨0x03000000, 0xFFFFFF00⟩,
    ⟨0x04000000, 0xFF00FFFF⟩, ⟨0x05000000, 0xFFFFFFFF⟩, ⟨0x06000000, 0xFFFFFF00⟩, ⟨0x07000000, 0xFFFFFFFF⟩,
    ⟨0x08000000, 0xFFFFFFFF⟩, ⟨0x09000000, 0xFFFFFFFF⟩ ]

/-- A word is the row's command exactly when its bits under the mask are the pattern (30_encoding.md R82). -/
def OpRow.matches (r : OpRow) (w : Word) : Bool := w &&& r.mask == r.pattern

/-- The table row a command belongs to (30_encoding.md R82). -/
def rowOf : Instr → OpRow
  | .nop => ⟨0x00000000, 0xFFFFFFFF⟩
  | .clr => ⟨0x01000000, 0xFFFFFFFF⟩
  | .lde _ _ _ => ⟨0x02000000, 0xFF000000⟩
  | .sett _ => ⟨0x03000000, 0xFFFFFF00⟩
  | .psym _ => ⟨0x04000000, 0xFF00FFFF⟩
  | .pflush => ⟨0x05000000, 0xFFFFFFFF⟩
  | .ubyte _ => ⟨0x06000000, 0xFFFFFF00⟩
  | .uend => ⟨0x07000000, 0xFFFFFFFF⟩
  | .rdstat => ⟨0x08000000, 0xFFFFFFFF⟩
  | .rderr => ⟨0x09000000, 0xFFFFFFFF⟩

/-- The command word whose bits spec/opcode_table.json numbers as `w`, every bit from `nbits` up 0. A command is one
32-bit word transferred whole on `CMD` (20_memory.md R52), so bit 0 of the number is bit 0 of the word. -/
def tableWord (nbits w : Nat) : Word := BitVec.ofNat 32 (w % 2 ^ nbits)

/-- The host's reading of a table row through the decoder. No command is longer than 32 bits (30_encoding.md R80). -/
def decodeTableWord (nbits w : Nat) : Option Instr :=
  if nbits ≤ 32 then decode (tableWord nbits w) else none

end Sys2Proof
end

