-- ==== Sys2Proof/Config.lean ====
section
/-! DEFINITION. The fixed numbers of the BPU (spec/00_scope.md R5: "None is left as an open parameter"). There is
NO free value: spec/93_implementation_defined.md says that nothing in the engine is left implementation-defined,
and spec/60_exceptions.md R182 that no word and no state has undefined behaviour. -/

namespace Sys2Proof.Config

/-- `MINLEN`: the least codeword length the engine accepts (R5; decision D7 for length 0). -/
abbrev minLen : Nat := 1

/-- `MAXLEN`: the greatest codeword length the engine accepts (R5; 90_conflicts.md C1). -/
abbrev maxLen : Nat := 8

/-- `N_MAX`: the greatest number of entries a header can carry; the engine does not check it (R5). -/
abbrev maxEntries : Nat := 255

/-- `ENC_SLOTS`: entries of ENC, one per symbol value (R5, decision D5). -/
abbrev encSlots : Nat := 256

/-- The least flat index 2^L + v of DEC: (1, 0) (10_state.md R35: the index "runs over 2..511"). -/
abbrev decFirst : Nat := 2

/-- `DEC_SLOTS`: entries of DEC, one per pair (L, v) (R5, decision D5). -/
abbrev decSlots : Nat := 510

end Sys2Proof.Config
end

