-- ==== Sys2Proof/Machine/State.lean ====
section
/-! DEFINITION. The state of the BPU as plain data. `Engine` is exactly what spec/10_state.md R20 calls the whole state
(STATUS is a read-only view and holds nothing: R31). `State` is the engine together with the two sides of its
interface (spec/00_scope.md R6, R7): the host's inputs not yet taken and the values transferred so far. Those two are
no engine state (R39 (a)); no command reads `out`. -/

namespace Sys2Proof.Machine

/-- A direct-mapped table as the list of its valid entries under their index, indices strictly rising (`Table.wf` in
Machine/Ops.lean). An unlisted index is an invalid entry, which holds no value (10_state.md R41). -/
abbrev Table (α : Type) := List (Nat × α)

/-- The payload of a valid ENC entry: the codeword's pair (length, value) (10_state.md R34: len:4, val:8). -/
structure EncEntry where
  /-- The codeword's length, 1..8. -/
  len : BitVec 4
  /-- The codeword's value, below 2^len. -/
  val : Byte
  deriving DecidableEq, Repr

/-- The engine's state (10_state.md R20). -/
structure Engine where
  /-- PBUF: the packer's bit buffer; its low PLEN bits are live (R21). -/
  pbuf : BitVec 16
  /-- PLEN: how many bits of PBUF are live (R22). -/
  plen : BitVec 5
  /-- UBUF: the bit-input shift register; its low ULEN bits are live (R23). -/
  ubuf : BitVec 8
  /-- ULEN: how many bits of UBUF are live (R24). -/
  ulen : BitVec 4
  /-- REM: the remaining-symbol counter (R25). -/
  rem : Byte
  /-- TRAIL: a payload byte arrived after the pass was complete (R28). -/
  trail : Bool
  /-- VLENS: bit L-1 is 1 when some loaded codeword has length L (R33). -/
  vlens : BitVec 8
  /-- ENC: symbol to codeword, 256 entries indexed by the symbol (R34). -/
  enc : Table EncEntry
  /-- DEC: codeword to symbol, 510 entries indexed by 2^L + v (R35). -/
  dec : Table Byte
  /-- ERR: the recorded error code, 0 when none (R30). -/
  err : BitVec 4
  /-- EINFO: the command word that raised the recorded error (R32). -/
  einfo : Word
  deriving DecidableEq, Repr

/-- The engine after hardware reset, and identically after `CLR` (10_state.md R40; 70_reset_and_hazards.md R200). -/
def Engine.reset : Engine :=
  { pbuf := 0, plen := 0, ubuf := 0, ulen := 0, rem := 0, trail := false, vlens := 0, enc := [], dec := [],
    err := 0, einfo := 0 }

/-- What the host can present to the engine (00_scope.md R7): a command word on `CMD`, or the hardware reset `rst`,
which the model has between commands only (70_reset_and_hazards.md R200). -/
inductive Input where
  | word (w : Word)
  | rst
  deriving DecidableEq, Repr

/-- A (port, value) pair (00_scope.md R6, R7). -/
inductive Output where
  /-- `POUT`: a payload byte from the packer. -/
  | pout (b : Byte)
  /-- `SOUT`: a decoded symbol from the unpacker. -/
  | sout (sym : Byte)
  /-- `RSP`: a response to `RDSTAT` or `RDERR`. -/
  | rsp (w : Word)
  deriving DecidableEq, Repr

/-- The machine: the engine and the two sides of its interface. -/
structure State where
  /-- The engine's state (10_state.md R20). -/
  engine : Engine
  /-- The inputs the host has offered and the engine has not yet taken, oldest first (00_scope.md R6). -/
  pending : List Input
  /-- The values transferred so far on the output ports, oldest first (00_scope.md R7; 20_memory.md R66). -/
  out : List Output
  deriving DecidableEq, Repr

/-- The machine right after reset: the engine as R40 says, nothing offered yet and nothing transferred yet
(assumption log 1 and 8). -/
def State.reset : State := { engine := Engine.reset, pending := [], out := [] }

/-- The error kinds (60_exceptions.md R170, R171). They are recorded in ERR; they are no stop of the machine. -/
inductive ErrorKind where
  /-- Code 1; raised by the host's Frequency Analyzer, never by the engine (R172). -/
  | tooManySymbols
  /-- Code 2; raised by the host, never by the engine (R172). -/
  | inputTooLarge
  /-- Code 3; raised by `LDE`. -/
  | unsupportedCodewordLength
  /-- Code 4; raised by `UEND`, and by the host for the header. -/
  | truncatedStream
  /-- Code 5; raised by `UBYTE`. -/
  | unknownSymbolInPayload
  /-- Code 6; raised by `PSYM`. -/
  | noCodeForSymbol
  /-- Code 7; raised by `LDE`. -/
  | badCodewordValue
  /-- Code 8; raised by any Illegal word. -/
  | illegalCommand
  deriving DecidableEq, Repr

/-- The reasons for which the machine stops: NONE. "there is no word and no state for which the engine's behaviour is
undefined, unpredictable or implementation-dependent" (60_exceptions.md R182), and every error of the spec is a next
state with ERR and EINFO written (R173). The type is empty, so no step can end in a fault: safe. -/
inductive Fault where
  deriving DecidableEq, Repr

/-- The reasons for which the model has no meaning for an instruction. -/
inductive Refusal where
  /-- An instruction without a meaning in the model, by its mnemonic in spec/opcode_table.json. Raised by no arm of
  `exec`: all ten commands have their meaning. It would be safe: the model stops where the engine goes on. -/
  | notModelled (mnemonic : String)
  deriving DecidableEq, Repr

end Sys2Proof.Machine
end

