-- ==== Sys2Proof/Machine/Ops.lean ====
section
/-! DEFINITION. The operations every command is made of: reading and writing a table slot, `raise` (the engine's
"trap entry", spec/60_exceptions.md R173) and the two ways out of the error state (R180), the gate on data commands
(R174), and the transfer of a command's outputs to the ports (spec/00_scope.md R6). -/

namespace Sys2Proof.Machine

/-! ### Tables -/

/-- Read a slot; `none` is an invalid entry (10_state.md R41). -/
def Table.get {α : Type} (k : Nat) : Table α → Option α
  | [] => none
  | (j, x) :: rest => if k = j then some x else Table.get k rest

/-- Write a slot (valid bit to 1), keeping the indices strictly rising; a slot already valid is replaced
(10_state.md R34, R35; decision D6). -/
def Table.put {α : Type} (k : Nat) (x : α) : Table α → Table α
  | [] => [(k, x)]
  | (j, y) :: rest =>
    if k < j then (k, x) :: (j, y) :: rest
    else if k = j then (k, x) :: rest
    else (j, y) :: Table.put k x rest

/-- Every index of the list is above `k` and they rise strictly. -/
def Table.risingAbove {α : Type} (k : Nat) : Table α → Bool
  | [] => true
  | (j, _) :: rest => decide (k < j) && Table.risingAbove j rest

/-- Every index lies in `lo ..< hi`. -/
def Table.within {α : Type} (lo hi : Nat) (t : Table α) : Bool :=
  t.all fun slot => decide (lo ≤ slot.1) && decide (slot.1 < hi)

/-- The canonical form of a table whose slots are `lo ..< hi`: indices strictly rising and in range, so that equal
tables are equal lists (assumption log 4). -/
def Table.wf {α : Type} (lo hi : Nat) (t : Table α) : Bool :=
  Table.within lo hi t &&
    match t with
    | [] => true
    | (j, _) :: rest => Table.risingAbove j rest

/-! ### Errors -/

/-- The error codes (60_exceptions.md R171, decision D15). -/
def errorCode : ErrorKind → BitVec 4
  | .tooManySymbols => 1
  | .inputTooLarge => 2
  | .unsupportedCodewordLength => 3
  | .truncatedStream => 4
  | .unknownSymbolInPayload => 5
  | .noCodeForSymbol => 6
  | .badCodewordValue => 7
  | .illegalCommand => 8

/-- `raise E` inside the command whose word is `w`: ERR and EINFO are written, nothing else changes, nothing is rolled
back (60_exceptions.md R173). Ending the command is the caller's: no effect follows a `raise`. -/
def raise (kind : ErrorKind) (w : Word) (e : Engine) : Engine :=
  { e with err := errorCode kind, einfo := w }

/-- Clearing the whole engine: the one way out of the error state, by `CLR` or by reset (60_exceptions.md R180;
40_control_and_table.md R111: "exactly the reset state"). Nothing of the old state is kept. -/
def clearEngine (_ : Engine) : Engine := Engine.reset

/-- The gate of a data command: it runs only when ERR = 0 and is otherwise discarded with no state change and no
output (60_exceptions.md R174). -/
def whenNoError (effect : Engine → Engine × List Output) (e : Engine) : Engine × List Output :=
  if e.err = 0 then effect e else (e, [])

/-! ### The ports -/

/-- Take the oldest input the host has offered; `none` when none waits (00_scope.md R6; 20_memory.md R65). -/
def nextInput (s : State) : Option (Input × State) :=
  match s.pending with
  | [] => none
  | i :: rest => some (i, { s with pending := rest })

/-- End of a command: the engine's new state, and the command's outputs after all earlier ones (00_scope.md R6;
20_memory.md R66). -/
def commit (s : State) (r : Engine × List Output) : Host.Outcome State Fault Refusal :=
  .next { s with engine := r.1, out := s.out ++ r.2 }

/-- No input waits: the engine stays as it is (assumption log 2). -/
def idle (s : State) : Host.Outcome State Fault Refusal := .next s

/-- Hardware reset (70_reset_and_hazards.md R200): the engine as R40 says, nothing emitted, nothing already
transferred taken back (10_state.md R39 (a)); the host's later inputs still wait (assumption log 3). -/
def hardwareReset (s : State) : Host.Outcome State Fault Refusal :=
  .next { s with engine := clearEngine s.engine }

/-- An Illegal word: `IllegalCommand` when no error is recorded, discarded otherwise (60_exceptions.md R174;
30_encoding.md R85, R86). -/
def illegalWord (w : Word) (s : State) : Host.Outcome State Fault Refusal :=
  commit s (whenNoError (fun e => (raise .illegalCommand w e, [])) s.engine)

/-- The payload bytes transferred so far, in order (00_scope.md R7). -/
def poutOf (out : List Output) : List Byte :=
  out.filterMap fun o => match o with
    | .pout b => some b
    | .sout _ => none
    | .rsp _ => none

/-- The decoded symbols transferred so far, in order (00_scope.md R7). -/
def soutOf (out : List Output) : List Byte :=
  out.filterMap fun o => match o with
    | .pout _ => none
    | .sout sym => some sym
    | .rsp _ => none

/-- The responses transferred so far, in order (00_scope.md R7). -/
def rspOf (out : List Output) : List Word :=
  out.filterMap fun o => match o with
    | .pout _ => none
    | .sout _ => none
    | .rsp w => some w

end Sys2Proof.Machine
end

