-- ==== Sys2Proof/Machine/Flags.lean ====
section
/-! DEFINITION. The flags and the status word: `DONE` (spec/10_state.md R29), the level output `err`
(spec/60_exceptions.md R176), the view `STATUS` (spec/10_state.md R31). -/

namespace Sys2Proof.Machine

/-- `DONE` is the value `REM == 0`, not a register (10_state.md R29). -/
def done (e : Engine) : Bool := e.rem == 0

/-- The `err` output: the level `ERR != 0` (60_exceptions.md R176). -/
def errLine (e : Engine) : Bool := e.err != 0

/-- `STATUS = VLENS ++ REM ++ ULEN[3:0] ++ PLEN[4:0] ++ 0b0 ++ DONE ++ TRAIL ++ ERR[3:0]` (10_state.md R31). -/
def status (e : Engine) : Word :=
  e.vlens ++ e.rem ++ e.ulen ++ e.plen ++ 0#1 ++ BitVec.ofBool (done e) ++ BitVec.ofBool e.trail ++ e.err

end Sys2Proof.Machine
end

