-- ==== Sys2Proof/Machine/Control.lean ====
section
/-! DEFINITION. The control commands `NOP`, `CLR`, `RDSTAT`, `RDERR` (spec/40_control_and_table.md). They run always,
in the error state too (spec/60_exceptions.md R174). -/

namespace Sys2Proof.Machine

/-- `NOP`: nothing (40_control_and_table.md R110). -/
def execNop (s : State) : Host.Outcome State Fault Refusal := .next s

/-- `CLR`: the reset state, nothing emitted, nothing already sent taken back (40_control_and_table.md R111). -/
def execClr (s : State) : Host.Outcome State Fault Refusal := commit s (clearEngine s.engine, [])

/-- `RDSTAT`: `emit RSP(STATUS)`, no state change (40_control_and_table.md R114). -/
def execRdstat (s : State) : Host.Outcome State Fault Refusal := commit s (s.engine, [.rsp (status s.engine)])

/-- `RDERR`: `emit RSP(EINFO)`, no state change, the error is not cleared (40_control_and_table.md R115). -/
def execRderr (s : State) : Host.Outcome State Fault Refusal := commit s (s.engine, [.rsp s.engine.einfo])

end Sys2Proof.Machine
end

