-- ==== Sys2Proof/Machine/Operands.lean ====
section
/-! DEFINITION. Codewords and table access: bit-strings against pairs (spec/00_scope.md R9), the checks on a header
triple, the engine's only "addressing modes" (spec/40_control_and_table.md R112), and the candidate lengths
(spec/10_state.md R33; `maxlen`, spec/00_scope.md R10). -/

namespace Sys2Proof.Machine

/-! ### Bit-strings and pairs -/

/-- `str(L, v)`: the bit-string of the pair, first character bit L-1 of v, last character bit 0 (00_scope.md R9). -/
def strOf : Nat → Nat → List Bool
  | 0, _ => []
  | n + 1, v => v.testBit n :: strOf n v

/-- The value of a bit-string read as an unsigned binary number, first bit most significant (00_scope.md R9). -/
def valueOf : List Bool → Nat
  | [] => 0
  | b :: rest => (if b then 2 ^ rest.length else 0) + valueOf rest

/-- `pair(s)`: length and value of a bit-string (00_scope.md R9). -/
def pairOf (s : List Bool) : Nat × Nat := (s.length, valueOf s)

/-- The codeword of an ENC entry as a bit-string (00_scope.md R9; 20_memory.md R52). -/
def EncEntry.bits (c : EncEntry) : List Bool := strOf c.len.toNat c.val.toNat

/-! ### The checks of `LDE` -/

/-- The length byte is 1..8 (40_control_and_table.md R113; `MINLEN`, `MAXLEN` of 00_scope.md R5). -/
def lengthSupported (len : Byte) : Bool :=
  decide (Config.minLen ≤ len.toNat) && decide (len.toNat ≤ Config.maxLen)

/-- `(C >> B) == 0`: no 1 bit at position len or above (40_control_and_table.md R113; 20_memory.md R52). -/
def valueFits (len val : Byte) : Bool := decide (val.toNat >>> len.toNat = 0)

/-! ### Table access -/

/-- ENC is addressed directly by the symbol (40_control_and_table.md R112). -/
def encIndex (sym : Byte) : Nat := sym.toNat

/-- DEC is addressed by the pair (L, v), flat index 2^L + v (40_control_and_table.md R112; 10_state.md R35). -/
def decIndex (len val : Nat) : Nat := 2 ^ len + val

/-- `ENC[s]`; `none` when its v is 0 (10_state.md R34, R41). -/
def encLookup (e : Engine) (sym : Byte) : Option EncEntry := Table.get (encIndex sym) e.enc

/-- `DEC[L, v]`; `none` when its v is 0 (10_state.md R35, R41). -/
def decLookup (e : Engine) (len val : Nat) : Option Byte := Table.get (decIndex len val) e.dec

/-- The engine after one table entry is loaded in both directions (40_control_and_table.md R113):
`ENC[A] <- {1, B, C}; DEC[B, C] <- {1, A}; VLENS[B-1] <- 1`. -/
def loadEntry (sym len val : Byte) (e : Engine) : Engine :=
  { e with
    enc := Table.put (encIndex sym) { len := len.setWidth 4, val := val } e.enc
    dec := Table.put (decIndex len.toNat val.toNat) sym e.dec
    vlens := e.vlens ||| (1#8 <<< (len.toNat - 1)) }

/-! ### Candidate lengths -/

/-- The length L is in `val_lens`: `VLENS[L-1] == 1` (10_state.md R33). -/
def isCandidate (vlens : BitVec 8) (len : Nat) : Bool :=
  match len with
  | 0 => false
  | n + 1 => vlens.getLsbD n

/-- The greatest L ≤ n with bit L-1 of the mask set, 0 when there is none. -/
def maxlenUpTo (vlens : BitVec 8) : Nat → Nat
  | 0 => 0
  | n + 1 => if vlens.getLsbD n then n + 1 else maxlenUpTo vlens n

/-- `maxlen(m)`: 0 when m = 0, otherwise 1 + the index of the highest set bit (00_scope.md R10). -/
def maxlen (vlens : BitVec 8) : Nat := maxlenUpTo vlens 8

end Sys2Proof.Machine
end

