-- ==== Sys2Proof/Machine/Pack.lean ====
section
/-! DEFINITION. The packer commands `PSYM` and `PFLUSH` (spec/41_pack.md). Every operation is the pseudocode's, in the
registers' widths; values the spec says never occur: assumption log 5. -/

namespace Sys2Proof.Machine

/-- `PBUF <- ((PBUF << e.len) | e.val)[15:0]; PLEN <- PLEN + e.len` (41_pack.md R131). -/
def appendCodeword (c : EncEntry) (e : Engine) : Engine :=
  { e with
    pbuf := (e.pbuf <<< c.len.toNat) ||| c.val.setWidth 16
    plen := e.plen + c.len.setWidth 5 }

/-- `(PBUF >> (PLEN - 8))[7:0]`: the leading, oldest eight bits (41_pack.md R131). -/
def leadingByte (e : Engine) : Byte := (e.pbuf >>> (e.plen.toNat - 8)).setWidth 8

/-- `PLEN <- PLEN - 8; PBUF <- PBUF[PLEN-1:0]`: only the live bits stay (41_pack.md R131). -/
def dropLeadingByte (e : Engine) : Engine :=
  { e with
    plen := e.plen - 8
    pbuf := BitVec.ofNat 16 (e.pbuf.toNat % 2 ^ (e.plen.toNat - 8)) }

/-- After an append: a buffer that EXCEEDS one byte's width gives its leading byte; exactly 8 bits wait
(41_pack.md R131, decision D9). -/
def emitIfOverByte (e : Engine) : Engine × List Output :=
  if 8 < e.plen.toNat then (dropLeadingByte e, [.pout (leadingByte e)]) else (e, [])

/-- What a `PSYM` whose word is `w` does when it runs (41_pack.md R131). -/
def psymEffect (w : Word) (sym : Byte) (e : Engine) : Engine × List Output :=
  match encLookup e sym with
  | none => (raise .noCodeForSymbol w e, [])
  | some c => emitIfOverByte (appendCodeword c e)

/-- `PSYM sym` (41_pack.md R131). -/
def execPsym (sym : Byte) (s : State) : Host.Outcome State Fault Refusal :=
  commit s (whenNoError (psymEffect (encode (.psym sym)) sym) s.engine)

/-- `(PBUF << (8 - PLEN))[7:0]`: the live bits on the left, zeros on the right (41_pack.md R132). With PLEN above 8, which
never stands between commands (10_state.md R22), the distance is 0 and the byte is PBUF[7:0]: the model's choice
(DESIGN CHOICE, assumption log 5). -/
def paddedByte (e : Engine) : Byte := (e.pbuf <<< (8 - e.plen.toNat)).setWidth 8

/-- What a `PFLUSH` does when it runs: whatever is left, 1 to 8 bits, leaves as one byte (41_pack.md R132;
90_conflicts.md C3). -/
def pflushEffect (e : Engine) : Engine × List Output :=
  if e.plen = 0 then (e, []) else ({ e with pbuf := 0, plen := 0 }, [.pout (paddedByte e)])

/-- `PFLUSH` (41_pack.md R132). -/
def execPflush (s : State) : Host.Outcome State Fault Refusal :=
  commit s (whenNoError pflushEffect s.engine)

end Sys2Proof.Machine
end

