-- ==== Sys2Proof/Machine/TableLoad.lean ====
section
/-! DEFINITION. The code-table command `LDE` (spec/40_control_and_table.md R113). -/

namespace Sys2Proof.Machine

/-- What an `LDE` whose word is `w` does when it runs: the length check before the value check, nothing written on
either error, otherwise both tables and the mask (R113; 60_exceptions.md R179 (3)). -/
def ldeEffect (w : Word) (sym len val : Byte) (e : Engine) : Engine × List Output :=
  if lengthSupported len = false then (raise .unsupportedCodewordLength w e, [])
  else if valueFits len val = false then (raise .badCodewordValue w e, [])
  else (loadEntry sym len val e, [])

/-- `LDE sym, len, val` (40_control_and_table.md R113). -/
def execLde (sym len val : Byte) (s : State) : Host.Outcome State Fault Refusal :=
  commit s (whenNoError (ldeEffect (encode (.lde sym len val)) sym len val) s.engine)

end Sys2Proof.Machine
end

