-- ==== Sys2Proof/Machine/Unpack.lean ====
section
/-! DEFINITION. The unpacker commands `SETT`, `UBYTE`, `UEND`: the bit-input shift register and the code-table lookup
decoder (spec/42_unpack.md). -/

namespace Sys2Proof.Machine

/-- What a `SETT t` does when it runs: the count is loaded, the shift register emptied, TRAIL cleared
(42_unpack.md R145, decision D18). -/
def settEffect (t : Byte) (e : Engine) : Engine × List Output :=
  ({ e with rem := t, ubuf := 0, ulen := 0, trail := false }, [])

/-- `SETT t` (42_unpack.md R145). -/
def execSett (t : Byte) (s : State) : Host.Outcome State Fault Refusal :=
  commit s (whenNoError (settEffect t) s.engine)

/-- `UBUF <- ((UBUF << 1) | b)[7:0]; ULEN <- ULEN + 1` (42_unpack.md R150; 10_state.md R23). -/
def shiftIn (b : Bool) (e : Engine) : Engine :=
  { e with
    ubuf := (e.ubuf <<< 1) ||| (BitVec.ofBool b).setWidth 8
    ulen := e.ulen + 1 }

/-- The lookup after a bit: only at a candidate length, exact match on the length and the live bits
`UBUF[ULEN-1:0]` together (42_unpack.md R150, R154). -/
def bufferLookup (e : Engine) : Option Byte :=
  if isCandidate e.vlens e.ulen.toNat then decLookup e e.ulen.toNat (e.ubuf.toNat % 2 ^ e.ulen.toNat) else none

/-- A hit clears the buffer and counts one symbol off (42_unpack.md R150). -/
def consumeHit (e : Engine) : Engine := { e with ubuf := 0, ulen := 0, rem := e.rem - 1 }

/-- The bits of one byte, or of the rest of it, first bit first, inside the `UBYTE` whose word is `w`
(42_unpack.md R150): before each bit the stop rule (R151); a hit emits; a buffer as long as the longest loaded codeword
without a hit overflows and ends the command (R152); otherwise the bits accumulate. -/
def feedBits (w : Word) : List Bool → Engine → Engine × List Output
  | [], e => (e, [])
  | b :: rest, e =>
    if e.rem = 0 then (e, [])
    else
      match bufferLookup (shiftIn b e) with
      | some sym =>
        let r := feedBits w rest (consumeHit (shiftIn b e))
        (r.1, .sout sym :: r.2)
      | none =>
        if maxlen e.vlens ≤ (shiftIn b e).ulen.toNat then
          (raise .unknownSymbolInPayload w (shiftIn b e), [])
        else feedBits w rest (shiftIn b e)

/-- The eight bits of a payload byte, bit 7 first (20_memory.md R51, decision D11). -/
def byteBits (b : Byte) : List Bool :=
  [b.getLsbD 7, b.getLsbD 6, b.getLsbD 5, b.getLsbD 4, b.getLsbD 3, b.getLsbD 2, b.getLsbD 1, b.getLsbD 0]

/-- What a `UBYTE b` whose word is `w` does when it runs: with the pass complete, or none open, the byte is discarded
and TRAIL set; otherwise its bits are fed (42_unpack.md R150). -/
def ubyteEffect (w : Word) (b : Byte) (e : Engine) : Engine × List Output :=
  if e.rem = 0 then ({ e with trail := true }, []) else feedBits w (byteBits b) e

/-- `UBYTE b` (42_unpack.md R150). -/
def execUbyte (b : Byte) (s : State) : Host.Outcome State Fault Refusal :=
  commit s (whenNoError (ubyteEffect (encode (.ubyte b)) b) s.engine)

/-- What a `UEND` whose word is `w` does when it runs (42_unpack.md R153). -/
def uendEffect (w : Word) (e : Engine) : Engine × List Output :=
  if e.rem = 0 then (e, []) else (raise .truncatedStream w e, [])

/-- `UEND` (42_unpack.md R153). -/
def execUend (s : State) : Host.Outcome State Fault Refusal :=
  commit s (whenNoError (uendEffect (encode .uend)) s.engine)

end Sys2Proof.Machine
end

