-- ==== Sys2Proof/Machine/Dispatch.lean ====
section
/-! DEFINITION. One arm per command of BPU-CS v1 (spec/30_encoding.md R82). -/

namespace Sys2Proof.Machine

-- The meaning of a decoded command (60_exceptions.md R174: "execute c"; a data command's gate stands in its meaning).
def exec (i : Instr) (s : State) : Host.Outcome State Fault Refusal :=
  match i with
  | .nop => Sys2Proof.Machine.execNop s
  | .clr => Sys2Proof.Machine.execClr s
  | .lde sym len val => Sys2Proof.Machine.execLde sym len val s
  | .sett t => Sys2Proof.Machine.execSett t s
  | .psym sym => Sys2Proof.Machine.execPsym sym s
  | .pflush => Sys2Proof.Machine.execPflush s
  | .ubyte b => Sys2Proof.Machine.execUbyte b s
  | .uend => Sys2Proof.Machine.execUend s
  | .rdstat => Sys2Proof.Machine.execRdstat s
  | .rderr => Sys2Proof.Machine.execRderr s

end Sys2Proof.Machine
end

