-- ==== Sys2Proof/Machine/Step.lean ====
section
/-! DEFINITION. One step of the machine: take the oldest input and act on it (spec/00_scope.md R6;
spec/60_exceptions.md R174; spec/70_reset_and_hazards.md R200, R221). -/

namespace Sys2Proof.Machine

/-- One step. A command word is decoded and executed to completion; an Illegal word is handled by R174; `rst` resets
the engine; with no input waiting the engine stays as it is. -/
def step (s : State) : Host.Outcome State Fault Refusal :=
  match nextInput s with
  | none => idle s
  | some (.rst, s') => hardwareReset s'
  | some (.word w, s') =>
    match decode w with
    | some i => exec i s'
    | none => illegalWord w s'

/-- The state with the table's word offered first, so that the very next step runs exactly it: the engine fetches
nothing, the host presents the word on `CMD` (00_scope.md R6; assumption log 8). -/
def State.withFetchWord (s : State) (nbits w : Nat) : State :=
  { s with pending := .word (tableWord nbits w) :: s.pending }

end Sys2Proof.Machine
end

