-- ==== Sys2Proof/Machine/Stream.lean ====
section
/-! DEFINITION. The CompressedStream (spec/20_memory.md R57, R58, R61) and the host's way of moving it through the
engine (R60). This is the host's side: no step of the engine uses it. -/

namespace Sys2Proof.Machine

/-- One header entry: symbol byte, codeword bit-length byte, codeword value byte (20_memory.md R57). -/
structure Triple where
  sym : Byte
  len : Byte
  val : Byte
  deriving DecidableEq, Repr

/-- A CompressedStream taken apart; N is the number of triples (20_memory.md R57). -/
structure CompressedStream where
  total : Byte
  triples : List Triple
  payload : List Byte
  deriving DecidableEq, Repr

/-- The three bytes of a header entry in stream order (20_memory.md R57, R60). -/
def tripleBytes (t : Triple) : List Byte := [t.sym, t.len, t.val]

/-- The `LDE` of a header entry: its three bytes are the fields A, B, C (30_encoding.md R83). -/
def tripleCommand (t : Triple) : Instr := .lde t.sym t.len t.val

/-- The header: N, T, then the triples (20_memory.md R57). The writer fails when a count does not fit its byte;
with both too large the document reports `TooManySymbols` (60_exceptions.md R172; assumption log 11). -/
def writeHeader (total : Nat) (triples : List Triple) : Except ErrorKind (List Byte) :=
  if Config.maxEntries < triples.length then .error .tooManySymbols
  else if 255 < total then .error .inputTooLarge
  else .ok (BitVec.ofNat 8 triples.length :: BitVec.ofNat 8 total :: triples.flatMap tripleBytes)

/-- Read `n` triples; `none` when the bytes end before (20_memory.md R60 (2)). -/
def readTriples : Nat → List Byte → Option (List Triple × List Byte)
  | 0, rest => some ([], rest)
  | n + 1, sym :: len :: val :: rest =>
    match readTriples n rest with
    | some (ts, payload) => some ({ sym := sym, len := len, val := val } :: ts, payload)
    | none => none
  | _ + 1, _ => none

/-- Take a stream apart; a stream shorter than 2 + 3N bytes is the host's `TruncatedStream` (20_memory.md R60 (2);
60_exceptions.md R172 (b)). -/
def readStream (stream : List Byte) : Except ErrorKind CompressedStream :=
  match stream with
  | n :: t :: body =>
    match readTriples n.toNat body with
    | some (ts, payload) => .ok { total := t, triples := ts, payload := payload }
    | none => .error .truncatedStream
  | _ => .error .truncatedStream

/-- The commands of an unpack pass up to its last payload byte, with the payload bytes presented: `CLR`, the triples in
header order, `SETT T`, the bytes (20_memory.md R60 (1), (3) to (5)). -/
def unpackOpening (f : CompressedStream) (presented : List Byte) : List Instr :=
  .clr :: f.triples.map tripleCommand ++ .sett f.total :: presented.map Instr.ubyte

/-- The whole sequence, ended by `UEND` (20_memory.md R60 (6)). -/
def unpackSequence (f : CompressedStream) (presented : List Byte) : List Instr := unpackOpening f presented ++ [.uend]

/-- The payload bytes the host presents: "when T = 0 it issues none" (20_memory.md R60 (5), R61). -/
def hostPresents (f : CompressedStream) : List Byte := if f.total = 0 then [] else f.payload

/-- The commands by which the host unpacks a stream without looking at `DONE` (20_memory.md R60 (1) to (6)). -/
def unpackCommands (stream : List Byte) : Except ErrorKind (List Instr) :=
  match readStream stream with
  | .error k => .error k
  | .ok f => .ok (unpackSequence f (hostPresents f))

/-- The commands of a host that presents the first `k` of these bytes and stops: "the host may stop as soon as `DONE` is
1" (20_memory.md R60 (5)). Whether `DONE` is 1 then is the engine's to say. -/
def unpackCommandsStoppingAfter (k : Nat) (stream : List Byte) : Except ErrorKind (List Instr) :=
  match readStream stream with
  | .error e => .error e
  | .ok f => .ok (unpackSequence f ((hostPresents f).take k))

/-- The expansion of `UNPK`: "with every payload byte presented", whatever T is (30_encoding.md R92). -/
def unpkCommands (stream : List Byte) : Except ErrorKind (List Instr) :=
  match readStream stream with
  | .error k => .error k
  | .ok f => .ok (unpackSequence f f.payload)

/-- The commands that pack an input (20_memory.md R60, "To pack"; 70_reset_and_hazards.md R202). -/
def packCommands (triples : List Triple) (syms : List Byte) : List Instr :=
  .clr :: triples.map tripleCommand ++ syms.map Instr.psym ++ [.pflush]

/-- Commands as the host offers them on `CMD`, one word each (00_scope.md R6; 30_encoding.md R80). -/
def inputsOf (cmds : List Instr) : List Input := cmds.map fun i => .word (encode i)

end Sys2Proof.Machine
end

