-- ==== Sys2Proof/WellFormed.lean ====
section
/-! DEFINITION. What the assembler accepts (spec/30_encoding.md R91, R92). A decoded `Instr` needs no check of its
own: its operands are 8-bit fields and the decoder checks no operand value (R84). A SOURCE LINE does: its operands
are numbers as written, and "An operand must fit its field (0..255) or the line is rejected by the assembler; it is
the assembler, not the engine, that refuses it" (R91). The assembler is host software; nothing here is a step of the
engine. -/

namespace Sys2Proof

/-- One assembler line: a command with its operands as written, or a pseudo-command (30_encoding.md R91, R92). -/
inductive SourceLine where
  | nop
  | clr
  | lde (sym len val : Nat)
  | sett (t : Nat)
  | psym (sym : Nat)
  | pflush
  | ubyte (b : Nat)
  | uend
  | rdstat
  | rderr
  /-- `LDC sym, "bits"`: the codeword as a bit-string, first character first (R92, 00_scope.md R9). -/
  | ldc (sym : Nat) (bits : List Bool)
  /-- `PSYMS s1, ..., sk` (R92). -/
  | psyms (syms : List Nat)
  /-- `UBYTES b1, ..., bk` (R92). -/
  | ubytes (bytes : List Nat)
  /-- `UNPK F`: a CompressedStream given as bytes (R92). -/
  | unpk (stream : List Nat)
  deriving DecidableEq, Repr

/-- An operand fits its 8-bit field (30_encoding.md R91). -/
def fitsField (n : Nat) : Bool := decide (n < 256)

/-- The string of `LDC` "must have 1 to 8 characters" (30_encoding.md R92). -/
def codewordLengthOk (bits : List Bool) : Bool :=
  decide (Config.minLen ≤ bits.length) && decide (bits.length ≤ Config.maxLen)

/-- The stream of `UNPK` holds its whole header: N, T and N triples (20_memory.md R57, R60 step (2)). -/
def headerPresent (stream : List Nat) : Bool :=
  match stream with
  | n :: _ :: body => decide (3 * n ≤ body.length)
  | _ => false

/-- The assembler's checks on a line (30_encoding.md R91, R92). -/
def SourceLine.wellFormed : SourceLine → Bool
  | .nop => true
  | .clr => true
  | .lde sym len val => fitsField sym && fitsField len && fitsField val
  | .sett t => fitsField t
  | .psym sym => fitsField sym
  | .pflush => true
  | .ubyte b => fitsField b
  | .uend => true
  | .rdstat => true
  | .rderr => true
  | .ldc sym bits => fitsField sym && codewordLengthOk bits
  | .psyms syms => syms.all fitsField
  | .ubytes bytes => bytes.all fitsField
  | .unpk stream => stream.all fitsField && headerPresent stream

end Sys2Proof
end

