-- ==== Sys2Proof/Machine/Asm.lean ====
section
/-! DEFINITION. The assembler (spec/30_encoding.md R91, R92): the text of one line, the expansion of a line to
commands. Host software; no step of the engine uses it. Text is a list of characters. The lexical points R91 leaves
open are in assumption log 9. -/

namespace Sys2Proof.Machine

/-! ### Lines to commands -/

/-- A checked operand as its field. -/
def fieldOf (n : Nat) : Byte := BitVec.ofNat 8 n

/-- The commands of a checked line: a command stands for itself, a pseudo-command "expands to real commands and adds no
behaviour" (30_encoding.md R91, R92). -/
def expandLine : SourceLine → List Instr
  | .nop => [.nop]
  | .clr => [.clr]
  | .lde sym len val => [.lde (fieldOf sym) (fieldOf len) (fieldOf val)]
  | .sett t => [.sett (fieldOf t)]
  | .psym sym => [.psym (fieldOf sym)]
  | .pflush => [.pflush]
  | .ubyte b => [.ubyte (fieldOf b)]
  | .uend => [.uend]
  | .rdstat => [.rdstat]
  | .rderr => [.rderr]
  | .ldc sym bits => [.lde (fieldOf sym) (fieldOf (pairOf bits).1) (fieldOf (pairOf bits).2)]
  | .psyms syms => syms.map fun n => .psym (fieldOf n)
  | .ubytes bytes => bytes.map fun n => .ubyte (fieldOf n)
  | .unpk stream =>
    match unpkCommands (stream.map fieldOf) with
    | .ok cmds => cmds
    | .error _ => []

/-- The assembler refuses a line that fails its checks (30_encoding.md R91). -/
def assemble (l : SourceLine) : Option (List Instr) := if l.wellFormed then some (expandLine l) else none

/-! ### Text to lines -/

/-- The pieces of a line. -/
inductive Token where
  | mnemonic (letters : List Char)
  | number (n : Nat)
  /-- A character in single quotes, as its byte value (R91; ASCII is the spec's general-knowledge note). -/
  | character (code : Nat)
  /-- A string in double quotes, as byte values (R92). -/
  | quoted (codes : List Nat)
  | comma
  deriving DecidableEq, Repr

/-- A blank. -/
def isBlank (c : Char) : Bool := c == ' ' || c == '\t'

/-- A printable ASCII character. -/
def isPrintable (c : Char) : Bool := decide (32 ≤ c.toNat) && decide (c.toNat ≤ 126)

/-- A capital letter. -/
def isCapital (c : Char) : Bool := decide (65 ≤ c.toNat) && decide (c.toNat ≤ 90)

/-- A decimal digit. -/
def isDigit (c : Char) : Bool := decide (48 ≤ c.toNat) && decide (c.toNat ≤ 57)

/-- A character of a mnemonic or of a number. -/
def isWordChar (c : Char) : Bool := isCapital c || isDigit c || (decide (97 ≤ c.toNat) && decide (c.toNat ≤ 122))

/-- A digit's value in a base. -/
def digitValue (base : Nat) (c : Char) : Option Nat :=
  let d :=
    if isDigit c then c.toNat - 48
    else if isCapital c then c.toNat - 55
    else if 97 ≤ c.toNat then c.toNat - 87
    else base
  if d < base then some d else none

/-- Digits in a base, most significant first. -/
def numberFrom (base acc : Nat) : List Char → Option Nat
  | [] => some acc
  | c :: rest =>
    match digitValue base c with
    | some d => numberFrom base (acc * base + d) rest
    | none => none

/-- "A number is decimal (`97`), hexadecimal (`0x61`) or binary (`0b101`)" (30_encoding.md R91). -/
def readNumber : List Char → Option Nat
  | '0' :: 'x' :: c :: rest => numberFrom 16 0 (c :: rest)
  | '0' :: 'b' :: c :: rest => numberFrom 2 0 (c :: rest)
  | cs => numberFrom 10 0 cs

/-- A run of word characters: a number when it begins with a digit, a mnemonic when it is all capitals. -/
def readWord (w : List Char) : Option Token :=
  match w with
  | [] => none
  | c :: _ =>
    if isDigit c then (readNumber w).map Token.number
    else if w.all isCapital then some (.mnemonic w)
    else none

/-- The pieces of a line up to its comment; `none` when some text is no piece. The first argument bounds the pieces and
blanks still to come. What may stand between quotes is the model's choice (assumption log 9): a double-quoted string ends
at the first double quote, with no escape, and holds printable characters only; between single quotes stands exactly one
printable character, which may be a quote. -/
def tokens : Nat → List Char → Option (List Token)
  | 0, _ => none
  | _ + 1, [] => some []
  | n + 1, c :: rest =>
    if c == ';' then some []
    else if isBlank c then tokens n rest
    else if c == ',' then (tokens n rest).map (Token.comma :: ·)
    else if c == '\'' then
      match rest with
      | q :: '\'' :: more => if isPrintable q then (tokens n more).map (Token.character q.toNat :: ·) else none
      | _ => none
    else if c == '"' then
      match rest.dropWhile (· != '"') with
      | _ :: more =>
        if (rest.takeWhile (· != '"')).all isPrintable then
          (tokens n more).map (Token.quoted ((rest.takeWhile (· != '"')).map Char.toNat) :: ·)
        else none
      | [] => none
    else
      match readWord ((c :: rest).takeWhile isWordChar) with
      | some t => (tokens n ((c :: rest).dropWhile isWordChar)).map (t :: ·)
      | none => none

/-- Operands "separated by commas" (30_encoding.md R91). -/
def commaSeparated : List Token → Option (List Token)
  | [] => some []
  | .comma :: _ => none
  | [t] => some [t]
  | t :: .comma :: t' :: rest => (commaSeparated (t' :: rest)).map (t :: ·)
  | _ :: _ => none

/-- A value operand: a number (30_encoding.md R91). -/
def valueOperand : Token → Option Nat
  | .number n => some n
  | .mnemonic _ => none
  | .character _ => none
  | .quoted _ => none
  | .comma => none

/-- A symbol operand: a number or one printable character in single quotes (30_encoding.md R91). -/
def symbolOperand : Token → Option Nat
  | .number n => some n
  | .character code => some code
  | .mnemonic _ => none
  | .quoted _ => none
  | .comma => none

/-- A bit of the string of `LDC`: the character '0' or '1' (30_encoding.md R92). -/
def bitOfCode (code : Nat) : Option Bool := if code = 48 then some false else if code = 49 then some true else none

/-- The symbols of `PSYMS`: symbol operands, or one string with one symbol per character (30_encoding.md R92). -/
def symbolList : List Token → Option (List Nat)
  | [.quoted codes] => some codes
  | [] => none
  | ts => ts.mapM symbolOperand

/-- The byte list of `UBYTES` and `UNPK`: at least one number (30_encoding.md R92). -/
def byteList : List Token → Option (List Nat)
  | [] => none
  | ts => ts.mapM valueOperand

/-- A line from its mnemonic and operands, "in field order A, B, C, leaving out the unused fields"
(30_encoding.md R91, R92). -/
def lineOf (m : List Char) (ops : List Token) : Option SourceLine :=
  if m = ['N', 'O', 'P'] then (if ops = [] then some .nop else none)
  else if m = ['C', 'L', 'R'] then (if ops = [] then some .clr else none)
  else if m = ['L', 'D', 'E'] then
    match ops with
    | [a, b, c] => do return .lde (← symbolOperand a) (← valueOperand b) (← valueOperand c)
    | _ => none
  else if m = ['S', 'E', 'T', 'T'] then
    match ops with
    | [c] => (valueOperand c).map SourceLine.sett
    | _ => none
  else if m = ['P', 'S', 'Y', 'M'] then
    match ops with
    | [a] => (symbolOperand a).map SourceLine.psym
    | _ => none
  else if m = ['P', 'F', 'L', 'U', 'S', 'H'] then (if ops = [] then some .pflush else none)
  else if m = ['U', 'B', 'Y', 'T', 'E'] then
    match ops with
    | [c] => (valueOperand c).map SourceLine.ubyte
    | _ => none
  else if m = ['U', 'E', 'N', 'D'] then (if ops = [] then some .uend else none)
  else if m = ['R', 'D', 'S', 'T', 'A', 'T'] then (if ops = [] then some .rdstat else none)
  else if m = ['R', 'D', 'E', 'R', 'R'] then (if ops = [] then some .rderr else none)
  else if m = ['L', 'D', 'C'] then
    match ops with
    | [a, .quoted codes] => do return .ldc (← symbolOperand a) (← codes.mapM bitOfCode)
    | _ => none
  else if m = ['P', 'S', 'Y', 'M', 'S'] then (symbolList ops).map SourceLine.psyms
  else if m = ['U', 'B', 'Y', 'T', 'E', 'S'] then (byteList ops).map SourceLine.ubytes
  else if m = ['U', 'N', 'P', 'K'] then (byteList ops).map SourceLine.unpk
  else none

/-- One line of text: `none` is a rejected line, `some none` a line with nothing but blanks and a comment
(30_encoding.md R91: "One command per line"). -/
def parseLine (text : List Char) : Option (Option SourceLine) :=
  match tokens (text.length + 1) text with
  | none => none
  | some [] => some none
  | some (.mnemonic m :: rest) =>
    match commaSeparated rest with
    | some ops => (lineOf m ops).map some
    | none => none
  | some (_ :: _) => none

/-- One line of text to its commands (30_encoding.md R91, R92). -/
def assembleText (text : List Char) : Option (List Instr) :=
  match parseLine text with
  | none => none
  | some none => some []
  | some (some l) => assemble l

end Sys2Proof.Machine
end

