-- ==== Sys2Proof/Machine/Payload.lean ====
section
/-! DEFINITION. The payload as the spec describes it, apart from the engine: the bit order of the packing side
(spec/20_memory.md R50, R54) and the parse of the unpacking side (spec/42_unpack.md R155). No step of the machine uses
these functions; statements compare the machine with them. -/

namespace Sys2Proof.Machine

/-! ### Packing side -/

/-- Eight bits as a byte, bit number 0 in the most significant place (20_memory.md R50: position 7 - (k mod 8)). -/
def byteOfBits (b0 b1 b2 b3 b4 b5 b6 b7 : Bool) : Byte :=
  BitVec.ofBool b0 ++ BitVec.ofBool b1 ++ BitVec.ofBool b2 ++ BitVec.ofBool b3 ++
    BitVec.ofBool b4 ++ BitVec.ofBool b5 ++ BitVec.ofBool b6 ++ BitVec.ofBool b7

/-- Payload byte number j of the bit-string B: bits B_{8j} .. B_{8j+7}, a missing bit is a padding 0
(20_memory.md R50, R54). -/
def payloadByte (bits : List Bool) (j : Nat) : Byte :=
  byteOfBits (bits.getD (8 * j) false) (bits.getD (8 * j + 1) false) (bits.getD (8 * j + 2) false)
    (bits.getD (8 * j + 3) false) (bits.getD (8 * j + 4) false) (bits.getD (8 * j + 5) false)
    (bits.getD (8 * j + 6) false) (bits.getD (8 * j + 7) false)

/-- ceil(S / 8) = floor((S + 7) / 8) (20_memory.md R59; 41_pack.md R133). -/
def payloadLength (nbits : Nat) : Nat := (nbits + 7) / 8

/-- The payload of the bit-string B (20_memory.md R50, R54, R59). -/
def payloadOf (bits : List Bool) : List Byte := (List.range (payloadLength bits.length)).map (payloadByte bits)

/-- The codeword of a symbol as a bit-string; nothing for a symbol without one. -/
def codewordOf (e : Engine) (sym : Byte) : List Bool :=
  match encLookup e sym with
  | none => []
  | some c => c.bits

/-- B = c_1 ++ ... ++ c_T: the concatenation of the symbols' codewords (20_memory.md R50). -/
def concatCodewords (e : Engine) (syms : List Byte) : List Bool := syms.flatMap (codewordOf e)

/-! ### Unpacking side -/

/-- The payload bytes as one bit sequence, MSB-first (42_unpack.md R155; 20_memory.md R51). -/
def streamBits (bytes : List Byte) : List Bool := bytes.flatMap byteBits

/-- The shortest leading bit-string, of length `len` or more and among the next `n` lengths, that is a codeword of the
decode mapping, with its symbol and the bits after it. -/
def shortestFrom (e : Engine) (bits : List Bool) : Nat → Nat → Option (Byte × List Bool)
  | 0, _ => none
  | n + 1, len =>
    if len ≤ bits.length then
      match decLookup e len (valueOf (bits.take len)) with
      | some sym => some (sym, bits.drop len)
      | none => shortestFrom e bits n (len + 1)
    else none

/-- The three ends of a parse, each with the bits not taken by a codeword (42_unpack.md R155 (1), (2), (3)). -/
inductive ParseEnd where
  /-- (1): the T codewords were taken. -/
  | complete (rest : List Bool)
  /-- (2): fewer than M bits are left and no leading string of them is a codeword. -/
  | truncated (rest : List Bool)
  /-- (3): at least M bits are left of which no leading string of length 1..M is a codeword. -/
  | unknown (rest : List Bool)
  deriving DecidableEq, Repr

/-- The parse of R155: take `n` codewords from the left, each the shortest leading one; M = maxlen(VLENS). For the
FIRST of them the first `start` bits have been looked up already (0 at the start of a pass; ULEN inside one, for the
bits waiting in UBUF). -/
def parse (e : Engine) (start : Nat) : Nat → List Bool → List Byte × ParseEnd
  | 0, bits => ([], .complete bits)
  | n + 1, bits =>
    match shortestFrom e bits (Config.maxLen - start) (start + 1) with
    | some (sym, rest) =>
      let r := parse e 0 n rest
      (sym :: r.1, r.2)
    | none => ([], if bits.length < maxlen e.vlens then .truncated bits else .unknown bits)

end Sys2Proof.Machine
end

