-- ==== Sys2Proof/Safety.lean ====
section
/-! DEFINITION. What a good state is, in the terms the statements use: the invariants the spec derives for every command
boundary (spec/10_state.md R30, R32, R36, R37; spec/60_exceptions.md R171) and the properties of a code table that the
engine does not check (spec/70_reset_and_hazards.md R210, R211). -/

namespace Sys2Proof.Machine

/-- The tables at a command boundary (10_state.md R36). -/
structure Engine.TablesOk (e : Engine) : Prop where
  /-- ENC has its 256 slots and no others, in canonical form (R34; assumption log 4). -/
  encCanonical : Table.wf 0 Config.encSlots e.enc = true
  /-- DEC has its 510 slots and no others, in canonical form (R35; assumption log 4). -/
  decCanonical : Table.wf Config.decFirst (Config.decFirst + Config.decSlots) e.dec = true
  /-- R36 (a): VLENS[L-1] = 1 exactly when some DEC[L, v].v = 1. -/
  candidateIffLoaded : ∀ len, 1 ≤ len → len ≤ 8 →
    (isCandidate e.vlens len = true ↔ ∃ v, v < 2 ^ len ∧ (decLookup e len v).isSome = true)
  /-- R36 (b): the codeword of every valid ENC entry is in the decode mapping. -/
  encInDec : ∀ sym c, encLookup e sym = some c → (decLookup e c.len.toNat c.val.toNat).isSome = true
  /-- R36 (c): every valid ENC entry has 1 <= len <= 8 and val < 2^len. -/
  encLegal : ∀ sym c, encLookup e sym = some c →
    1 ≤ c.len.toNat ∧ c.len.toNat ≤ 8 ∧ c.val.toNat < 2 ^ c.len.toNat

/-- The two bit buffers at a command boundary (10_state.md R37). -/
structure Engine.BuffersOk (e : Engine) : Prop where
  /-- R37 (a): PLEN <= 8. -/
  plenBound : e.plen.toNat ≤ 8
  /-- R37 (a): PBUF < 2^PLEN. -/
  pbufLive : e.pbuf.toNat < 2 ^ e.plen.toNat
  /-- R24: ULEN is 0..8. -/
  ulenBound : e.ulen.toNat ≤ 8
  /-- R37 (c), R23: UBUF < 2^ULEN. -/
  ubufLive : e.ubuf.toNat < 2 ^ e.ulen.toNat
  /-- R37 (b): ULEN = 0, or ULEN < maxlen(VLENS), unless the unpacker has overflowed. -/
  ulenShort : e.err ≠ errorCode .unknownSymbolInPayload → e.ulen = 0 ∨ e.ulen.toNat < maxlen e.vlens
  /-- R37, last sentence: with ERR = 5 the buffer has reached maxlen(VLENS), and it holds at least the failing bit. -/
  ulenLong : e.err = errorCode .unknownSymbolInPayload → e.ulen ≠ 0 ∧ maxlen e.vlens ≤ e.ulen.toNat
  /-- R37 (d): if REM = 0 then ULEN = 0. -/
  remZero : e.rem = 0 → e.ulen = 0

/-- The recorded error at a command boundary (10_state.md R30, R32; 60_exceptions.md R171). -/
structure Engine.ErrorOk (e : Engine) : Prop where
  /-- R30, R31: ERR is 0 or 3..8. -/
  errCode : e.err = 0 ∨ (3 ≤ e.err.toNat ∧ e.err.toNat ≤ 8)
  /-- R32: when ERR = 0, EINFO is 0. -/
  noError : e.err = 0 → e.einfo = 0
  /-- R171 code 3: the `LDE` word, field B is 0 or 9..255. -/
  onLength : e.err = errorCode .unsupportedCodewordLength →
    ∃ sym len val, e.einfo = encode (.lde sym len val) ∧ (len.toNat = 0 ∨ 8 < len.toNat)
  /-- R171 code 4: `0x07000000`, and REM != 0. -/
  onTruncated : e.err = errorCode .truncatedStream → e.einfo = 0x07000000 ∧ e.rem ≠ 0
  /-- R171 code 5: the `UBYTE` word, and REM still counts the symbols not decoded (R175). -/
  onUnknown : e.err = errorCode .unknownSymbolInPayload → ∃ b, e.einfo = encode (.ubyte b)
  /-- R171 code 6: the `PSYM` word, and its symbol has no ENC entry. -/
  onNoCode : e.err = errorCode .noCodeForSymbol → ∃ sym, e.einfo = encode (.psym sym) ∧ encLookup e sym = none
  /-- R171 code 7: the `LDE` word, 1 <= B <= 8 and C >= 2^B. -/
  onValue : e.err = errorCode .badCodewordValue →
    ∃ sym len val, e.einfo = encode (.lde sym len val) ∧ 1 ≤ len.toNat ∧ len.toNat ≤ 8 ∧ 2 ^ len.toNat ≤ val.toNat
  /-- R171 code 8: the Illegal word. -/
  onIllegal : e.err = errorCode .illegalCommand → decode e.einfo = none

/-- The invariant of the engine. -/
structure Engine.Inv (e : Engine) : Prop where
  tables : e.TablesOk
  buffers : e.BuffersOk
  error : e.ErrorOk

/-- The invariant of the machine. -/
def State.Inv (s : State) : Prop := s.engine.Inv

/-! ### Tables the host must load -/

/-- No loaded codeword is a prefix of another symbol's (00_scope.md R12 "Prefix code"; 70_reset_and_hazards.md R210). -/
def Engine.PrefixFree (e : Engine) : Prop :=
  ∀ s₁ s₂ c₁ c₂, encLookup e s₁ = some c₁ → encLookup e s₂ = some c₂ → c₁.bits <+: c₂.bits → s₁ = s₂

/-- DEC holds exactly the codewords of ENC, each for its symbol: what loading pairwise distinct symbols with pairwise
distinct codewords into empty tables leaves (40_control_and_table.md R113; 70_reset_and_hazards.md R211). -/
def Engine.DecMirrorsEnc (e : Engine) : Prop :=
  ∀ sym len v, v < 2 ^ len →
    (decLookup e len v = some sym ↔ ∃ c, encLookup e sym = some c ∧ c.len.toNat = len ∧ c.val.toNat = v)

/-- Every symbol of the input has a codeword. -/
def Engine.Covers (e : Engine) (syms : List Byte) : Prop := ∀ sym ∈ syms, (encLookup e sym).isSome = true

/-! ### Kinds of commands and passes -/

/-- The control commands, which run always; every other command is a data command (60_exceptions.md R174;
40_control_and_table.md, head). -/
def isControl : Instr → Bool
  | .nop => true
  | .clr => true
  | .lde _ _ _ => false
  | .sett _ => false
  | .psym _ => false
  | .pflush => false
  | .ubyte _ => false
  | .uend => false
  | .rdstat => true
  | .rderr => true

/-- The packer's commands (41_pack.md). -/
def isPacker : Instr → Bool
  | .nop => false
  | .clr => false
  | .lde _ _ _ => false
  | .sett _ => false
  | .psym _ => true
  | .pflush => true
  | .ubyte _ => false
  | .uend => false
  | .rdstat => false
  | .rderr => false

/-- The unpacker's commands (42_unpack.md). -/
def isUnpacker : Instr → Bool
  | .nop => false
  | .clr => false
  | .lde _ _ _ => false
  | .sett _ => true
  | .psym _ => false
  | .pflush => false
  | .ubyte _ => true
  | .uend => true
  | .rdstat => false
  | .rderr => false

/-- A pack pass of an input: its `PSYM`s in order and one `PFLUSH` (41_pack.md R134). -/
def packInputs (syms : List Byte) : List Input := inputsOf (syms.map Instr.psym ++ [.pflush])

/-- An unpack pass: `SETT`, the payload bytes in order, `UEND` (42_unpack.md R155). -/
def unpackInputs (total : Byte) (bytes : List Byte) : List Input :=
  inputsOf (.sett total :: bytes.map Instr.ubyte ++ [.uend])

/-- A table as the host must load it: legal triples, pairwise distinct symbols, and no codeword a prefix of another
(70_reset_and_hazards.md R205, R210, R211). Two equal codewords are prefixes of each other, so they are excluded. -/
structure GoodTable (triples : List Triple) : Prop where
  legal : ∀ t ∈ triples, 1 ≤ t.len.toNat ∧ t.len.toNat ≤ 8 ∧ t.val.toNat < 2 ^ t.len.toNat
  distinct : (triples.map Triple.sym).Nodup
  noPrefix : ∀ t ∈ triples, ∀ u ∈ triples,
    strOf t.len.toNat t.val.toNat <+: strOf u.len.toNat u.val.toNat → t = u

end Sys2Proof.Machine
end

