-- ==== Sys2Proof/Certificates/Slice0/Obligations.lean ====
section
/-! DEFINITION. The statements about the BPU, one per definition. Each docstring names the rule of spec/ it rests on. -/

open Sys2Proof Sys2Proof.Machine

/-! ### Encoding -/

/-- 30_encoding.md R80 to R84: the word of every command, every operand at every value, decodes to that command, and a
legal word is the word of exactly one command. By the second half EINFO, written with the command's word, is the word
that came in on CMD (assumption log 6). -/
def Obligations.DecodeAndEncodeAreInverse : Prop :=
  (∀ i : Instr, decode (encode i) = some i) ∧ (∀ (w : Word) (i : Instr), decode w = some i → encode i = w)

/-- 30_encoding.md R82: the ten rows of the table, each "exactly when `w & mask == match`". -/
def Obligations.WordIsCommandWhenMaskedBitsMatch : Prop :=
  ∀ w : Word,
    (decode w = some .nop ↔ w &&& 0xFFFFFFFF = 0x00000000) ∧
    (decode w = some .clr ↔ w &&& 0xFFFFFFFF = 0x01000000) ∧
    ((∃ sym len val, decode w = some (.lde sym len val)) ↔ w &&& 0xFF000000 = 0x02000000) ∧
    ((∃ t, decode w = some (.sett t)) ↔ w &&& 0xFFFFFF00 = 0x03000000) ∧
    ((∃ sym, decode w = some (.psym sym)) ↔ w &&& 0xFF00FFFF = 0x04000000) ∧
    (decode w = some .pflush ↔ w &&& 0xFFFFFFFF = 0x05000000) ∧
    ((∃ b, decode w = some (.ubyte b)) ↔ w &&& 0xFFFFFF00 = 0x06000000) ∧
    (decode w = some .uend ↔ w &&& 0xFFFFFFFF = 0x07000000) ∧
    (decode w = some .rdstat ↔ w &&& 0xFFFFFFFF = 0x08000000) ∧
    (decode w = some .rderr ↔ w &&& 0xFFFFFFFF = 0x09000000)

/-- 30_encoding.md R84 to R86: the Illegal words are those with an unassigned opcode and those with a nonzero field
their format does not use; no operand value makes a word Illegal. -/
def Obligations.IllegalWordsAreTheReservedOnes : Prop :=
  ∀ op a b c : Byte,
    decode (wordOf op a b c) = none ↔
      (0x09 < op.toNat ∨
       ((op = 0x00 ∨ op = 0x01 ∨ op = 0x05 ∨ op = 0x07 ∨ op = 0x08 ∨ op = 0x09) ∧ (a ≠ 0 ∨ b ≠ 0 ∨ c ≠ 0)) ∨
       (op = 0x04 ∧ (b ≠ 0 ∨ c ≠ 0)) ∨
       ((op = 0x03 ∨ op = 0x06) ∧ (a ≠ 0 ∨ b ≠ 0)))

/-- 30_encoding.md R91 and 95_test_vectors.md: one word of every command, as the spec writes it out, and Illegal
words of section 2.2 there. A sanity statement. -/
def Obligations.WordsWrittenOutDecode : Prop :=
  decode 0x00000000 = some .nop ∧ decode 0x01000000 = some .clr ∧
  decode 0x02620305 = some (.lde 0x62 3 5) ∧ decode 0x03000004 = some (.sett 4) ∧
  decode 0x04610000 = some (.psym 0x61) ∧ decode 0x05000000 = some .pflush ∧
  decode 0x06000010 = some (.ubyte 0x10) ∧ decode 0x07000000 = some .uend ∧
  decode 0x08000000 = some .rdstat ∧ decode 0x09000000 = some .rderr ∧
  decode 0x0A000000 = none ∧ decode 0xFFFFFFFF = none ∧ decode 0x04610100 = none ∧ decode 0x06010010 = none

/-- 00_scope.md R9: character i of `str(L, v)` is bit L-1-i of v; `str` and `pair` are inverse to each other, both
ways; two strings are equal exactly when their pairs are. -/
def Obligations.StrAndPairAreInverse : Prop :=
  (∀ len v i : Nat, i < len → (strOf len v)[i]? = some (v.testBit (len - 1 - i))) ∧
  (∀ s t : List Bool, s = t ↔ pairOf s = pairOf t) ∧
  (∀ len v : Nat, v < 2 ^ len → pairOf (strOf len v) = (len, v)) ∧
  (∀ s : List Bool, (pairOf s).2 < 2 ^ (pairOf s).1 ∧ strOf (pairOf s).1 (pairOf s).2 = s)

/-! ### The step -/

/-- 00_scope.md R6, 60_exceptions.md R174: when the oldest word offered decodes to a command, the step is that command's
`exec` on the state in which the word has been taken from the queue. (The queue is the model's, assumption log 1.) -/
def Obligations.StepExecutesDecodedCommand : Prop :=
  ∀ (s : State) (w : Word) (rest : List Input) (i : Instr),
    s.pending = .word w :: rest → decode w = some i → step s = exec i { s with pending := rest }

/-- 60_exceptions.md R174, the whole dispatch: a control command executes whatever ERR is; with ERR ≠ 0 everything else
is discarded with no state change and no output; with ERR = 0 an Illegal word raises IllegalCommand and a data command
executes. (The queue the word is taken from is the model's, assumption log 1.) -/
def Obligations.DispatchOfEveryWord : Prop :=
  ∀ (s : State) (w : Word) (rest : List Input), s.pending = .word w :: rest →
    (∀ i, decode w = some i → isControl i = true → step s = exec i { s with pending := rest }) ∧
    (s.engine.err ≠ 0 → (∀ i, decode w = some i → isControl i = false) → step s = .next { s with pending := rest }) ∧
    (s.engine.err = 0 → decode w = none →
      step s = .next { s with pending := rest, engine := { s.engine with err := 8, einfo := w } }) ∧
    (s.engine.err = 0 → ∀ i, decode w = some i → isControl i = false → step s = exec i { s with pending := rest })

/-- 60_exceptions.md R174: each of the six data commands, in the error state, completes and does nothing at all. -/
def Obligations.DataCommandDiscardedInErrorState : Prop :=
  ∀ (s : State) (i : Instr), isControl i = false → s.engine.err ≠ 0 → exec i s = .next s

/-- 70_reset_and_hazards.md R200 with 10_state.md R40: `rst` gives every item its reset value and emits nothing.
That the host's later inputs still wait is the model's choice (assumption log 3). -/
def Obligations.HardwareResetGivesResetState : Prop :=
  ∀ (s : State) (rest : List Input), s.pending = .rst :: rest →
    ∃ t, step s = .next t ∧ t.out = s.out ∧ t.pending = rest ∧
      t.engine.pbuf = 0 ∧ t.engine.plen = 0 ∧ t.engine.ubuf = 0 ∧ t.engine.ulen = 0 ∧ t.engine.rem = 0 ∧
      t.engine.trail = false ∧ t.engine.vlens = 0 ∧ (∀ sym, encLookup t.engine sym = none) ∧
      (∀ len v, decLookup t.engine len v = none) ∧ t.engine.err = 0 ∧ t.engine.einfo = 0 ∧
      status t.engine = 0x00000020

/-- THE MODEL'S OWN CHOICE (assumption log 2): with no input offered the machine stays as it is. -/
def Obligations.NoInputLeavesTheStateAlone : Prop := ∀ s : State, s.pending = [] → step s = .next s

/-- 60_exceptions.md R182: a step is defined for every state and every input. -/
def Obligations.StepIsTotal : Prop := ∀ s : State, ∃ t, step s = .next t

/-- 20_memory.md R66, 60_exceptions.md R181: a step appends to what the ports have carried and takes nothing back, all
outputs of one step go to one port, there are at most eight, and inputs are taken one at a time, oldest first. (The
queue and the list of outputs are the model's, assumption log 1.) -/
def Obligations.OutputsAreOnlyAppended : Prop :=
  ∀ s t : State, step s = .next t →
    t.pending = s.pending.tail ∧
    ∃ new, t.out = s.out ++ new ∧ new.length ≤ 8 ∧
      ((∀ o ∈ new, ∃ b, o = .pout b) ∨ (∀ o ∈ new, ∃ sym, o = .sout sym) ∨ (∀ o ∈ new, ∃ w, o = .rsp w))

/-! ### Reset and control commands -/

/-- 10_state.md R40: every row of its table, for the machine right after reset, and identically after hardware reset and
after `CLR` from any state; nothing is emitted by either. The queue of inputs is the model's (assumption log 1), and that
later inputs still wait after rst is the model's choice (assumption log 3). -/
def Obligations.ResetAndClrValues : Prop :=
  (State.reset.engine.pbuf = 0 ∧ State.reset.engine.plen = 0 ∧ State.reset.engine.ubuf = 0 ∧
   State.reset.engine.ulen = 0 ∧ State.reset.engine.rem = 0 ∧ done State.reset.engine = true ∧
   State.reset.engine.trail = false ∧ State.reset.engine.vlens = 0 ∧
   (∀ sym, encLookup State.reset.engine sym = none) ∧ (∀ len v, decLookup State.reset.engine len v = none) ∧
   State.reset.engine.err = 0 ∧ State.reset.engine.einfo = 0 ∧ status State.reset.engine = 0x00000020 ∧
   State.reset.out = []) ∧
  (∀ (s : State) (rest : List Input), s.pending = .rst :: rest →
    step s = .next { s with pending := rest, engine := State.reset.engine }) ∧
  (∀ s : State, exec .clr s = .next { s with engine := State.reset.engine })

/-- 40_control_and_table.md R110: `NOP` is the word 0; from any state S it gives S and no output. -/
def Obligations.NopChangesNothing : Prop := encode .nop = 0x00000000 ∧ ∀ s : State, exec .nop s = .next s

/-- 40_control_and_table.md R111: `CLR` runs always and leaves exactly the reset state; it emits nothing and takes
nothing back. -/
def Obligations.ClrClearsTheWholeEngine : Prop :=
  encode .clr = 0x01000000 ∧ ∀ s : State,
    exec .clr s = .next { s with engine :=
      { pbuf := 0, plen := 0, ubuf := 0, ulen := 0, rem := 0, trail := false, vlens := 0, enc := [], dec := [],
        err := 0, einfo := 0 } }

/-- 40_control_and_table.md R114: `RDSTAT` runs always, emits STATUS on RSP and changes no state. -/
def Obligations.RdstatEmitsStatus : Prop :=
  encode .rdstat = 0x08000000 ∧ ∀ s : State, exec .rdstat s = .next { s with out := s.out ++ [.rsp (status s.engine)] }

/-- 10_state.md R31: every field of STATUS stands at its bits, and STATUS reads 0x00000020 at reset. -/
def Obligations.StatusFieldsAtTheirBits : Prop :=
  status Engine.reset = 0x00000020 ∧ ∀ e : Engine,
    (status e).extractLsb' 24 8 = e.vlens ∧ (status e).extractLsb' 16 8 = e.rem ∧
    (status e).extractLsb' 12 4 = e.ulen ∧ (status e).extractLsb' 7 5 = e.plen ∧
    (status e).getLsbD 6 = false ∧ (status e).getLsbD 5 = decide (e.rem = 0) ∧
    (status e).getLsbD 4 = e.trail ∧ (status e).extractLsb' 0 4 = e.err

/-- 40_control_and_table.md R115: `RDERR` runs always, emits EINFO on RSP, changes no state and clears no error. -/
def Obligations.RderrEmitsEinfo : Prop :=
  encode .rderr = 0x09000000 ∧ ∀ s : State, exec .rderr s = .next { s with out := s.out ++ [.rsp s.engine.einfo] }

/-! ### The code table -/

/-- 40_control_and_table.md R113: `LDE` when ERR = 0. A length of 0 or above 8 raises code 3, then a value of 2^len or
more raises code 7, both writing nothing else; otherwise ENC[sym], DEC[len, val] and the VLENS bit are written, every
other slot and every other item stays, and nothing is emitted. -/
def Obligations.LdeLoadsOneEntry : Prop :=
  ∀ (s : State) (sym len val : Byte), encode (.lde sym len val) = wordOf 0x02 sym len val ∧ (s.engine.err = 0 →
    ((len.toNat = 0 ∨ 8 < len.toNat) →
      exec (.lde sym len val) s =
        .next { s with engine := { s.engine with err := 3, einfo := wordOf 0x02 sym len val } }) ∧
    (1 ≤ len.toNat → len.toNat ≤ 8 → 2 ^ len.toNat ≤ val.toNat →
      exec (.lde sym len val) s =
        .next { s with engine := { s.engine with err := 7, einfo := wordOf 0x02 sym len val } }) ∧
    (1 ≤ len.toNat → len.toNat ≤ 8 → val.toNat < 2 ^ len.toNat →
      ∃ t, exec (.lde sym len val) s = .next t ∧
        t.engine = { s.engine with enc := t.engine.enc, dec := t.engine.dec, vlens := t.engine.vlens } ∧
        t.pending = s.pending ∧ t.out = s.out ∧
        (∀ x, encLookup t.engine x =
          if x = sym then some { len := len.setWidth 4, val := val } else encLookup s.engine x) ∧
        (∀ l v, v < 2 ^ l → decLookup t.engine l v =
          if l = len.toNat ∧ v = val.toNat then some sym else decLookup s.engine l v) ∧
        (∀ l, isCandidate t.engine.vlens l = (decide (l = len.toNat) || isCandidate s.engine.vlens l))))

/-- 20_memory.md R62: two loads of different symbols with different codewords give the same engine in either order. -/
def Obligations.LoadOrderOfDistinctEntriesIsIrrelevant : Prop :=
  ∀ (s : State) (a b la lb va vb : Byte), s.engine.TablesOk → s.engine.err = 0 →
    1 ≤ la.toNat → la.toNat ≤ 8 → va.toNat < 2 ^ la.toNat → 1 ≤ lb.toNat → lb.toNat ≤ 8 → vb.toNat < 2 ^ lb.toNat →
    a ≠ b → (la, va) ≠ (lb, vb) →
    ∃ t₁ t₂ u, exec (.lde a la va) s = .next t₁ ∧ exec (.lde b lb vb) t₁ = .next u ∧
      exec (.lde b lb vb) s = .next t₂ ∧ exec (.lde a la va) t₂ = .next u

/-- 70_reset_and_hazards.md R211: a symbol loaded twice packs with its latest codeword while both codewords decode to
it; a codeword loaded for two symbols decodes to the later one while both still pack to it; no error is raised. -/
def Obligations.LaterLoadWins : Prop :=
  (∀ (s : State) (a l₁ v₁ l₂ v₂ : Byte), s.engine.err = 0 →
    1 ≤ l₁.toNat → l₁.toNat ≤ 8 → v₁.toNat < 2 ^ l₁.toNat → 1 ≤ l₂.toNat → l₂.toNat ≤ 8 → v₂.toNat < 2 ^ l₂.toNat →
    ∃ t u, exec (.lde a l₁ v₁) s = .next t ∧ exec (.lde a l₂ v₂) t = .next u ∧ u.engine.err = 0 ∧
      encLookup u.engine a = some { len := l₂.setWidth 4, val := v₂ } ∧
      decLookup u.engine l₁.toNat v₁.toNat = some a ∧ decLookup u.engine l₂.toNat v₂.toNat = some a) ∧
  (∀ (s : State) (a b l v : Byte), s.engine.err = 0 → 1 ≤ l.toNat → l.toNat ≤ 8 → v.toNat < 2 ^ l.toNat →
    ∃ t u, exec (.lde a l v) s = .next t ∧ exec (.lde b l v) t = .next u ∧ u.engine.err = 0 ∧
      encLookup u.engine a = some { len := l.setWidth 4, val := v } ∧
      encLookup u.engine b = some { len := l.setWidth 4, val := v } ∧
      decLookup u.engine l.toNat v.toNat = some b)

/-- 10_state.md R36 (b), second half: a codeword that packs a symbol and decodes to it goes on decoding to it until an
input reloads that codeword for another symbol, reloads the symbol, or clears the engine. -/
def Obligations.CodewordDecodesToItsSymbolUntilReloaded : Prop :=
  ∀ (s t : State) (sym : Byte) (c : EncEntry), s.engine.TablesOk → step s = .next t →
    encLookup s.engine sym = some c → decLookup s.engine c.len.toNat c.val.toNat = some sym →
    (encLookup t.engine sym = some c ∧ decLookup t.engine c.len.toNat c.val.toNat = some sym) ∨
    t.engine = Engine.reset ∨
    (∃ other len val, s.pending.head? = some (.word (encode (.lde other len val))) ∧
      (other = sym ∨ (len.toNat = c.len.toNat ∧ val = c.val)))

/-- 10_state.md R33: between two clears VLENS only grows, and only `LDE` changes it. -/
def Obligations.CandidateLengthsOnlyGrow : Prop :=
  ∀ s t : State, step s = .next t → t.engine ≠ Engine.reset →
    (∀ l, isCandidate s.engine.vlens l = true → isCandidate t.engine.vlens l = true) ∧
    (t.engine.vlens ≠ s.engine.vlens →
      ∃ sym len val, s.pending.head? = some (.word (encode (.lde sym len val))))

/-! ### The packer -/

/-- 41_pack.md R131: `PSYM` when ERR = 0, from a buffer as R37 (a) says. A symbol without an entry raises code 6 and
appends nothing. Otherwise the codeword is appended; a buffer that then exceeds eight bits gives its oldest eight as
one byte; exactly eight bits wait; nothing else changes. -/
def Obligations.PsymAppendsTheCodeword : Prop :=
  ∀ (s : State) (sym : Byte), encode (.psym sym) = wordOf 0x04 sym 0 0 ∧ (s.engine.err = 0 →
    (encLookup s.engine sym = none →
      exec (.psym sym) s = .next { s with engine := { s.engine with err := 6, einfo := wordOf 0x04 sym 0 0 } }) ∧
    (∀ c, encLookup s.engine sym = some c →
      s.engine.plen.toNat ≤ 8 → s.engine.pbuf.toNat < 2 ^ s.engine.plen.toNat →
      1 ≤ c.len.toNat → c.len.toNat ≤ 8 → c.val.toNat < 2 ^ c.len.toNat →
      (s.engine.plen.toNat + c.len.toNat ≤ 8 →
        exec (.psym sym) s = .next { s with engine := { s.engine with
          pbuf := BitVec.ofNat 16 (s.engine.pbuf.toNat * 2 ^ c.len.toNat + c.val.toNat),
          plen := BitVec.ofNat 5 (s.engine.plen.toNat + c.len.toNat) } }) ∧
      (8 < s.engine.plen.toNat + c.len.toNat →
        exec (.psym sym) s = .next { s with
          engine := { s.engine with
            pbuf := BitVec.ofNat 16 ((s.engine.pbuf.toNat * 2 ^ c.len.toNat + c.val.toNat) %
              2 ^ (s.engine.plen.toNat + c.len.toNat - 8)),
            plen := BitVec.ofNat 5 (s.engine.plen.toNat + c.len.toNat - 8) },
          out := s.out ++ [.pout (BitVec.ofNat 8 ((s.engine.pbuf.toNat * 2 ^ c.len.toNat + c.val.toNat) /
            2 ^ (s.engine.plen.toNat + c.len.toNat - 8)))] })))

/-- 41_pack.md R132: `PFLUSH` when ERR = 0. An empty buffer gives nothing; 1 to 8 bits leave as one byte, the live bits
on the left and zeros on the right, and the buffer is empty; nothing else changes. -/
def Obligations.PflushEmitsWhatIsLeft : Prop :=
  encode .pflush = 0x05000000 ∧ ∀ s : State, s.engine.err = 0 →
    (s.engine.plen = 0 → exec .pflush s = .next s) ∧
    (1 ≤ s.engine.plen.toNat → s.engine.plen.toNat ≤ 8 → s.engine.pbuf.toNat < 2 ^ s.engine.plen.toNat →
      exec .pflush s = .next { s with
        engine := { s.engine with pbuf := 0, plen := 0 },
        out := s.out ++ [.pout (BitVec.ofNat 8 (s.engine.pbuf.toNat * 2 ^ (8 - s.engine.plen.toNat)))] })

/-- 41_pack.md R136, R131, R132: what the packer does depends on PBUF, PLEN, ENC and ERR only. -/
def Obligations.PackerReadsOnlyItsOwnState : Prop :=
  ∀ (s u : State) (i : Instr), isPacker i = true →
    s.engine.pbuf = u.engine.pbuf → s.engine.plen = u.engine.plen → s.engine.enc = u.engine.enc →
    s.engine.err = u.engine.err →
    ∃ s' u' new, exec i s = .next s' ∧ exec i u = .next u' ∧ s'.out = s.out ++ new ∧ u'.out = u.out ++ new ∧
      s'.engine.pbuf = u'.engine.pbuf ∧ s'.engine.plen = u'.engine.plen ∧ s'.engine.enc = u'.engine.enc ∧
      s'.engine.err = u'.engine.err

/-- 41_pack.md R135: after the `PSYM`s of an input, from an empty buffer, exactly the payload bytes already passed by at
least one more bit have been emitted, and the 1 to 8 bits after them wait in PBUF. -/
def Obligations.PayloadLagsByOneToEightBits : Prop :=
  ∀ (s : State) (syms : List Byte) (rest : List Input),
    s.engine.Inv → s.engine.err = 0 → s.engine.plen = 0 → s.engine.Covers syms → syms ≠ [] →
    s.pending = inputsOf (syms.map Instr.psym) ++ rest →
    let bits := concatCodewords s.engine syms
    ∃ t, Host.Core.run Sys2Proof.core syms.length s = .next t ∧ t.pending = rest ∧
      t.out = s.out ++ ((payloadOf bits).take ((bits.length - 1) / 8)).map Output.pout ∧
      1 ≤ t.engine.plen.toNat ∧ t.engine.plen.toNat ≤ 8 ∧
      strOf t.engine.plen.toNat t.engine.pbuf.toNat = bits.drop (8 * ((bits.length - 1) / 8))

/-- 41_pack.md R134, for a pass with no other command in between (assumption log 10): the bytes on POUT are the payload
of the concatenated codewords, MSB-first and zero-padded, and the pass ends with PLEN = 0 and nothing else changed. -/
def Obligations.PackPassEmitsThePayload : Prop :=
  ∀ (s : State) (syms : List Byte) (rest : List Input),
    s.engine.Inv → s.engine.err = 0 → s.engine.plen = 0 → s.engine.Covers syms →
    s.pending = packInputs syms ++ rest →
    Host.Core.run Sys2Proof.core (syms.length + 1) s = .next { s with
      pending := rest, out := s.out ++ (payloadOf (concatCodewords s.engine syms)).map Output.pout }

/-- 20_memory.md R59: the payload size law, for the engine. -/
def Obligations.PayloadSizeLaw : Prop :=
  ∀ (s : State) (syms : List Byte) (rest : List Input),
    s.engine.Inv → s.engine.err = 0 → s.engine.plen = 0 → s.engine.Covers syms →
    s.pending = packInputs syms ++ rest →
    ∃ t, Host.Core.run Sys2Proof.core (syms.length + 1) s = .next t ∧
      (poutOf t.out).length = (poutOf s.out).length +
        ((syms.map fun sym => (codewordOf s.engine sym).length).sum + 7) / 8

/-! ### The unpacker -/

/-- 42_unpack.md R145: `SETT t` when ERR = 0 loads REM, empties the shift register, clears TRAIL, and changes nothing
else; DONE then reads 1 exactly when t = 0. -/
def Obligations.SettOpensAPass : Prop :=
  ∀ (s : State) (t : Byte), encode (.sett t) = wordOf 0x03 0 0 t ∧ (s.engine.err = 0 →
    exec (.sett t) s =
      .next { s with engine := { s.engine with rem := t, ubuf := 0, ulen := 0, trail := false } } ∧
    (done { s.engine with rem := t, ubuf := 0, ulen := 0, trail := false } = true ↔ t = 0))

/-- 42_unpack.md R150 (c), 10_state.md R28: with REM = 0 the byte is discarded and TRAIL set, nothing else. -/
def Obligations.UbyteAfterThePassOnlySetsTrail : Prop :=
  ∀ (s : State) (b : Byte), s.engine.err = 0 → s.engine.rem = 0 →
    exec (.ubyte b) s = .next { s with engine := { s.engine with trail := true } }

/-- 42_unpack.md R150 with R151, R152: `UBYTE` when ERR = 0 and REM ≠ 0, as a parse of the bits waiting in UBUF followed
by the byte's bits. The symbols parsed go to SOUT and are counted off REM. Either the count reaches zero and the rest of
the byte is skipped, or the bits left over wait in UBUF, or they overflow at the longest loaded codeword length (at one
bit for an empty table) and code 5 is raised. Nothing else changes. -/
def Obligations.UbyteParsesItsBits : Prop :=
  ∀ (s : State) (b : Byte), s.engine.Inv → s.engine.err = 0 → s.engine.rem ≠ 0 →
    let e := s.engine
    let r := parse e e.ulen.toNat e.rem.toNat (strOf e.ulen.toNat e.ubuf.toNat ++ byteBits b)
    let e' := { e with rem := BitVec.ofNat 8 (e.rem.toNat - r.1.length) }
    exec (.ubyte b) s = .next { s with
      engine :=
        match r.2 with
        | .complete _ => { e' with ubuf := 0, ulen := 0 }
        | .truncated rest => { e' with ubuf := BitVec.ofNat 8 (valueOf rest), ulen := BitVec.ofNat 4 rest.length }
        | .unknown rest => { e' with
            ubuf := BitVec.ofNat 8 (valueOf (rest.take (max 1 (maxlen e.vlens)))),
            ulen := BitVec.ofNat 4 (max 1 (maxlen e.vlens)),
            err := 5, einfo := wordOf 0x06 0 0 b },
      out := s.out ++ r.1.map Output.sout }

/-- 42_unpack.md R150, 10_state.md R25, R26: `UBYTE` completes from every state. It writes UBUF, ULEN, REM, TRAIL, ERR
and EINFO only; it emits on SOUT only, and every symbol is counted off REM, which never wraps. -/
def Obligations.UbyteCountsItsSymbolsOffRem : Prop :=
  ∀ (s : State) (b : Byte),
    ∃ (t : State) (syms : List Byte), exec (.ubyte b) s = .next t ∧ t.pending = s.pending ∧ t.out = s.out ++ syms.map Output.sout ∧
      t.engine = { s.engine with
        ubuf := t.engine.ubuf, ulen := t.engine.ulen, rem := t.engine.rem, trail := t.engine.trail,
        err := t.engine.err, einfo := t.engine.einfo } ∧
      t.engine.rem.toNat + syms.length = s.engine.rem.toNat ∧ syms.length ≤ 8

/-- 42_unpack.md R153: `UEND` when ERR = 0 changes nothing when the pass is complete and raises code 4 otherwise. -/
def Obligations.UendChecksTheCount : Prop :=
  encode .uend = 0x07000000 ∧ ∀ s : State, s.engine.err = 0 →
    (s.engine.rem = 0 → exec .uend s = .next s) ∧
    (s.engine.rem ≠ 0 →
      exec .uend s = .next { s with engine := { s.engine with err := 4, einfo := 0x07000000 } })

/-- 42_unpack.md R151: once REM = 0 no command but `SETT` makes it nonzero, and no command at all emits on SOUT. -/
def Obligations.CompletePassEmitsNoMoreSymbols : Prop :=
  ∀ s t : State, step s = .next t → s.engine.rem = 0 →
    soutOf t.out = soutOf s.out ∧
    (t.engine.rem = 0 ∨ ∃ n, s.pending.head? = some (.word (encode (.sett n))))

/-- 42_unpack.md R155, for a pass with no other command in between (assumption log 10) and VLENS ≠ 0: the symbols of the
parse appear on SOUT in order. (1) Complete: no error, empty buffer, TRAIL exactly when a whole byte is left over.
(2) Truncated: `UEND` raises code 4 and the bits left over still wait. (3) Unknown: the `UBYTE` that holds the M-th bit
after the last codeword raises code 5 and every later data command of the pass is discarded. -/
def Obligations.UnpackPassFollowsTheParse : Prop :=
  ∀ (s : State) (total : Byte) (bytes : List Byte) (rest : List Input),
    s.engine.Inv → s.engine.err = 0 → s.engine.vlens ≠ 0 → s.pending = unpackInputs total bytes ++ rest →
    let e := s.engine
    let m := maxlen e.vlens
    let r := parse e 0 total.toNat (streamBits bytes)
    let e' := { e with rem := BitVec.ofNat 8 (total.toNat - r.1.length), trail := false }
    Host.Core.run Sys2Proof.core (bytes.length + 2) s = .next {
      engine :=
        match r.2 with
        | .complete left => { e' with ubuf := 0, ulen := 0, trail := decide (8 ≤ left.length) }
        | .truncated left => { e' with
            ubuf := BitVec.ofNat 8 (valueOf left), ulen := BitVec.ofNat 4 left.length,
            err := 4, einfo := 0x07000000 }
        | .unknown left => { e' with
            ubuf := BitVec.ofNat 8 (valueOf (left.take m)), ulen := BitVec.ofNat 4 m,
            err := 5, einfo := wordOf 0x06 0 0 (bytes.getD ((8 * bytes.length - left.length + m - 1) / 8) 0) },
      pending := rest,
      out := s.out ++ r.1.map Output.sout }

/-- 42_unpack.md R156: the round trip on the engine. With a prefix-free table without duplicates, whatever a pack pass
of an input of at most 255 symbols emits unpacks to that input, on any engine with the same table and no error recorded,
with no error and REM = 0, ULEN = 0, TRAIL = 0. No other command stands inside either pass (assumption log 10). -/
def Obligations.UnpackOfPackIsTheInput : Prop :=
  ∀ (s : State) (syms : List Byte) (rest : List Input),
    s.engine.Inv → s.engine.err = 0 → s.engine.plen = 0 → s.engine.PrefixFree → s.engine.DecMirrorsEnc →
    s.engine.Covers syms → syms.length ≤ 255 → s.pending = packInputs syms ++ rest →
    ∃ t payload, Host.Core.run Sys2Proof.core (syms.length + 1) s = .next t ∧
      t.out = s.out ++ payload.map Output.pout ∧
      ∀ (u : State) (rest' : List Input), u.engine.enc = s.engine.enc → u.engine.dec = s.engine.dec →
        u.engine.vlens = s.engine.vlens → u.engine.err = 0 →
        u.pending = unpackInputs (BitVec.ofNat 8 syms.length) payload ++ rest' →
        ∃ v, Host.Core.run Sys2Proof.core (payload.length + 2) u = .next v ∧
          v.out = u.out ++ syms.map Output.sout ∧ v.pending = rest' ∧
          v.engine.err = 0 ∧ v.engine.rem = 0 ∧ v.engine.ulen = 0 ∧ v.engine.trail = false

/-! ### The machine as a whole -/

/-- 10_state.md R36, R37, 60_exceptions.md R171: the invariant holds right after reset. -/
def Obligations.InvariantHoldsAtReset : Prop := State.reset.Inv

/-- 10_state.md R36, R37, R30, R32, 60_exceptions.md R171: every step keeps the invariant, from every state that has
it: the tables canonical and in agreement with each other and with VLENS, the live bits within their lengths, the
buffer lengths in range, the error code legal and EINFO the word that code says. -/
def Obligations.StepKeepsInvariant : Prop := ∀ s t : State, s.Inv → step s = .next t → t.Inv

/-- 60_exceptions.md R173, 10_state.md R32: an error recorded by a step carries the whole word of the command that
raised it, and a step that records none changes EINFO only by clearing the engine. -/
def Obligations.RaiseRecordsTheWholeWord : Prop :=
  ∀ (s t : State) (w : Word) (rest : List Input), s.pending = .word w :: rest → s.engine.err = 0 →
    step s = .next t →
    (t.engine.err ≠ 0 → t.engine.einfo = w ∧ 3 ≤ t.engine.err.toNat ∧ t.engine.err.toNat ≤ 8) ∧
    (t.engine.err = 0 → t.engine.einfo = s.engine.einfo ∨ t.engine = Engine.reset)

/-- 60_exceptions.md R180, R175, 10_state.md R30: while an error is recorded a step changes no item of the engine,
unless it is `CLR` or hardware reset, which clear all of it; and it emits nothing on POUT or SOUT. -/
def Obligations.OnlyClearingLeavesTheErrorState : Prop :=
  ∀ s t : State, s.engine.err ≠ 0 → step s = .next t →
    poutOf t.out = poutOf s.out ∧ soutOf t.out = soutOf s.out ∧
    ((t.engine = s.engine ∧ s.pending.head? ≠ some .rst ∧ s.pending.head? ≠ some (.word 0x01000000)) ∨
     (t.engine = Engine.reset ∧
       (s.pending.head? = some .rst ∨ s.pending.head? = some (.word 0x01000000))))

/-- 60_exceptions.md R176: the `err` output is 1 exactly when ERR ≠ 0. It rises when an error is recorded, with the word
that raised it in EINFO, and falls only on `CLR` or reset. -/
def Obligations.ErrLineRisesOnErrorAndFallsOnClear : Prop :=
  ∀ s t : State, step s = .next t →
    (errLine s.engine = true ↔ s.engine.err ≠ 0) ∧
    (errLine s.engine = false → errLine t.engine = true →
      s.pending.head? = some (.word t.engine.einfo) ∧ ∃ k, t.engine.err = errorCode k) ∧
    (errLine s.engine = true → errLine t.engine = false →
      s.pending.head? = some .rst ∨ s.pending.head? = some (.word (encode .clr)))

/-- 10_state.md R26: which items each command may write; every other item is unchanged. -/
def Obligations.CommandsWriteOnlyTheirItems : Prop :=
  ∀ (s t : State) (i : Instr), exec i s = .next t →
    (i ≠ .clr → isPacker i = false → t.engine.pbuf = s.engine.pbuf ∧ t.engine.plen = s.engine.plen) ∧
    (i ≠ .clr → (∀ n, i ≠ .sett n) → (∀ b, i ≠ .ubyte b) →
      t.engine.ubuf = s.engine.ubuf ∧ t.engine.ulen = s.engine.ulen ∧ t.engine.rem = s.engine.rem ∧
      t.engine.trail = s.engine.trail) ∧
    (i ≠ .clr → (∀ sym len val, i ≠ .lde sym len val) →
      t.engine.vlens = s.engine.vlens ∧ t.engine.enc = s.engine.enc ∧ t.engine.dec = s.engine.dec) ∧
    (isControl i = true → i ≠ .clr → t.engine = s.engine) ∧
    ((∃ n, i = .sett n) ∨ i = .pflush → t.engine.err = s.engine.err ∧ t.engine.einfo = s.engine.einfo) ∧
    t.pending = s.pending

/-- 10_state.md R26: a packer command and an unpacker command that raise no error give the same engine and the same
values on every port in either order, so the two passes may be interleaved. -/
def Obligations.PackerAndUnpackerDoNotInterfere : Prop :=
  ∀ (s p pu u up : State) (i j : Instr), isPacker i = true → isUnpacker j = true →
    exec i s = .next p → exec j p = .next pu → exec j s = .next u → exec i u = .next up →
    p.engine.err = 0 → u.engine.err = 0 →
    pu.engine = up.engine ∧ poutOf pu.out = poutOf up.out ∧ soutOf pu.out = soutOf up.out ∧
      rspOf pu.out = rspOf up.out

/-- 70_reset_and_hazards.md R201: in the reset state `PSYM` of any symbol raises code 6, `UBYTE` sets TRAIL, `PFLUSH` and
`UEND` do nothing. -/
def Obligations.ResetEngineIsUsableButEmpty : Prop :=
  ∀ sym b : Byte,
    exec (.psym sym) State.reset =
      .next { State.reset with engine := { Engine.reset with err := 6, einfo := wordOf 0x04 sym 0 0 } } ∧
    exec (.ubyte b) State.reset = .next { State.reset with engine := { Engine.reset with trail := true } } ∧
    exec .pflush State.reset = .next State.reset ∧ exec .uend State.reset = .next State.reset

/-- 20_memory.md R56: `CLR` and `SETT` done twice in a row equal doing them once, and so does an `LDE` with the same
operands. -/
def Obligations.ClrSettAndLdeAreIdempotent : Prop :=
  ∀ (s t : State) (i : Instr),
    (i = .clr ∨ (∃ n, i = .sett n) ∨ (∃ sym len val, i = .lde sym len val)) → exec i s = .next t → exec i t = .next t

/-! ### The CompressedStream and the assembler -/

/-- 20_memory.md R58: the header size law. -/
def Obligations.HeaderSizeLaw : Prop :=
  ∀ (total : Nat) (triples : List Triple) (header : List Byte),
    writeHeader total triples = .ok header → header.length = 2 + 3 * triples.length

/-- 20_memory.md R57, R60: a stream written from its parts reads back as those parts, at every N and T the format
carries. -/
def Obligations.StreamReadsBack : Prop :=
  ∀ (total : Nat) (triples : List Triple) (payload : List Byte), total ≤ 255 → triples.length ≤ 255 →
    ∃ header, writeHeader total triples = .ok header ∧
      readStream (header ++ payload) = .ok { total := BitVec.ofNat 8 total, triples := triples, payload := payload }

/-- 42_unpack.md R156 with 20_memory.md R57, R60: the round trip through the whole CompressedStream, from ANY state of
the machine, the error state included: the host's pack commands for a good table, the stream it writes from the header
and the bytes on POUT, and the host's unpack commands for that stream give the input back and no error. No other command
stands inside either sequence (assumption log 10). -/
def Obligations.StreamRoundTrip : Prop :=
  ∀ (s : State) (triples : List Triple) (syms : List Byte) (rest : List Input),
    GoodTable triples → triples.length ≤ 255 → syms.length ≤ 255 → (∀ sym ∈ syms, sym ∈ triples.map Triple.sym) →
    s.pending = inputsOf (packCommands triples syms) ++ rest →
    ∃ t header payload cmds,
      Host.Core.run Sys2Proof.core (packCommands triples syms).length s = .next t ∧
      t.out = s.out ++ payload.map Output.pout ∧ t.engine.err = 0 ∧
      writeHeader syms.length triples = .ok header ∧ unpackCommands (header ++ payload) = .ok cmds ∧
      ∀ (u : State) (rest' : List Input), u.pending = inputsOf cmds ++ rest' →
        ∃ v, Host.Core.run Sys2Proof.core cmds.length u = .next v ∧
          v.out = u.out ++ syms.map Output.sout ∧ v.engine.err = 0 ∧ v.engine.trail = false ∧ v.pending = rest'

/-- 30_encoding.md R92, R88: `LDC` with a string of 1 to 8 characters assembles to one `LDE`, whose pair is the string's
and which the engine loads without an error whenever none is recorded. -/
def Obligations.LdcAssemblesToALoadThatSucceeds : Prop :=
  ∀ (sym : Nat) (bits : List Bool), sym < 256 → 1 ≤ bits.length → bits.length ≤ 8 →
    ∃ len val : Byte, assemble (.ldc sym bits) = some [.lde (BitVec.ofNat 8 sym) len val] ∧
      strOf len.toNat val.toNat = bits ∧
      ∀ s : State, s.engine.err = 0 →
        ∃ t, exec (.lde (BitVec.ofNat 8 sym) len val) s = .next t ∧ t.engine.err = 0 ∧
          codewordOf t.engine (BitVec.ofNat 8 sym) = bits

/-- 30_encoding.md R92, 20_memory.md R60: `UNPK F` assembles to `CLR`, one `LDE` for each header triple with the three
bytes at offsets 2+3i, 3+3i, 4+3i, `SETT F[1]`, one `UBYTE` for each payload byte, `UEND`. -/
def Obligations.UnpkAssemblesToTheUnpackSequence : Prop :=
  ∀ stream : List Nat, (SourceLine.unpk stream).wellFormed = true →
    let f := fun j => BitVec.ofNat 8 (stream.getD j 0)
    assemble (.unpk stream) = some (
      .clr :: (List.range (stream.getD 0 0)).map (fun i => Instr.lde (f (2 + 3 * i)) (f (3 + 3 * i)) (f (4 + 3 * i))) ++
        .sett (f 1) :: (stream.drop (2 + 3 * stream.getD 0 0)).map (fun n => Instr.ubyte (BitVec.ofNat 8 n)) ++
        [.uend])

/-- 20_memory.md R60 (1) to (6), R61: the host reports `TruncatedStream` for a stream shorter than 2 + 3N bytes;
otherwise its commands are `CLR`, one `LDE` for each header triple in header order, `SETT T`, one `UBYTE` for each payload
byte, but none when T = 0, and `UEND`. -/
def Obligations.HostUnpackCommandsOfAStream : Prop :=
  ∀ stream : List Byte,
    let f := fun j => stream.getD j 0
    let n := (f 0).toNat
    (stream.length < 2 + 3 * n → unpackCommands stream = .error .truncatedStream) ∧
    (2 + 3 * n ≤ stream.length → unpackCommands stream = .ok (
      .clr :: (List.range n).map (fun i => Instr.lde (f (2 + 3 * i)) (f (3 + 3 * i)) (f (4 + 3 * i))) ++
        .sett (f 1) :: (if f 1 = 0 then [] else stream.drop (2 + 3 * n)).map Instr.ubyte ++ [.uend]))

/-- 20_memory.md R60 (5), 42_unpack.md R151: "the host may stop as soon as `DONE` is 1". If `DONE` is 1 after the first k
bytes presented, then stopping there and presenting all of them end with the same outputs, those already given, and the
same engine but for TRAIL; the `UEND` after the k-th byte changes nothing at all. No other command stands inside the
sequence (assumption log 10). -/
def Obligations.StoppingAtDoneLosesNothing : Prop :=
  ∀ (s t : State) (f : CompressedStream) (bytes : List Byte) (k : Nat) (rest : List Input),
    Host.Core.run Sys2Proof.core (unpackOpening f (bytes.take k)).length
      { s with pending := inputsOf (unpackOpening f (bytes.take k)) ++ rest } = .next t →
    done t.engine = true →
    Host.Core.run Sys2Proof.core (unpackSequence f (bytes.take k)).length
      { s with pending := inputsOf (unpackSequence f (bytes.take k)) ++ rest } = .next t ∧
    ∃ trail, Host.Core.run Sys2Proof.core (unpackSequence f bytes).length
      { s with pending := inputsOf (unpackSequence f bytes) ++ rest } =
        .next { t with engine := { t.engine with trail := trail } }
end

