-- ==== Sys2Proof/Laws/Codeword.lean ====
section
/-! SUPPORT. The laws of bit-strings (spec/00_scope.md R9), of the candidate lengths (spec/10_state.md R33) and of
`maxlen` (spec/00_scope.md R10). -/

namespace Sys2Proof.Machine

/-! ### Bit-strings -/

@[simp] theorem strOf_zero (v : Nat) : strOf 0 v = [] := rfl

@[simp] theorem strOf_length (n v : Nat) : (strOf n v).length = n := by
  induction n with
  | zero => rfl
  | succ n ih => simp [strOf, ih]

/-- Only the low bits of the value matter. -/
theorem strOf_mod (n v : Nat) : ∀ m, n ≤ m → strOf n (v % 2 ^ m) = strOf n v := by
  induction n with
  | zero => intros; rfl
  | succ n ih =>
    intro m hm
    simp only [strOf, Nat.testBit_mod_two_pow, ih m (by omega)]
    simp [show n < m by omega]

/-- The string of a value put together from a high part and a low part of m bits is the two strings in order. -/
theorem strOf_append (n m x y : Nat) (hy : y < 2 ^ m) : strOf (n + m) (x * 2 ^ m + y) = strOf n x ++ strOf m y := by
  induction n with
  | zero =>
    simp only [Nat.zero_add, strOf_zero, List.nil_append]
    rw [← strOf_mod m (x * 2 ^ m + y) m (Nat.le_refl m)]
    congr 1
    rw [Nat.mul_comm, Nat.mul_add_mod, Nat.mod_eq_of_lt hy]
  | succ n ih =>
    rw [show n + 1 + m = (n + m) + 1 by omega]
    simp only [strOf, ih, List.cons_append]
    congr 1
    rw [Nat.mul_comm, Nat.testBit_two_pow_mul_add _ hy]
    simp [show ¬ n + m < m by omega]

@[simp] theorem valueOf_nil : valueOf [] = 0 := rfl

/-- A bit-string's value is below two to its length. -/
theorem valueOf_lt (s : List Bool) : valueOf s < 2 ^ s.length := by
  induction s with
  | nil => simp [valueOf]
  | cons b rest ih =>
    simp only [valueOf, List.length_cons, Nat.pow_succ]
    cases b <;> simp <;> omega

/-- The value of two strings in order. -/
theorem valueOf_append (s t : List Bool) : valueOf (s ++ t) = valueOf s * 2 ^ t.length + valueOf t := by
  induction s with
  | nil => simp
  | cons b rest ih =>
    simp only [List.cons_append, valueOf, ih, List.length_append, Nat.pow_add]
    cases b <;> simp [Nat.add_mul, Nat.add_assoc]

/-! ### Candidate lengths and `maxlen` -/

theorem isCandidate_succ (m : BitVec 8) (n : Nat) : isCandidate m (n + 1) = m.getLsbD n := rfl

@[simp] theorem isCandidate_zero (m : BitVec 8) : isCandidate m 0 = false := rfl

/-- A candidate length is 1..8. -/
theorem isCandidate_range {m : BitVec 8} {len : Nat} (h : isCandidate m len = true) : 1 ≤ len ∧ len ≤ 8 := by
  cases len with
  | zero => simp at h
  | succ n =>
    have : n < 8 := by
      by_contra hn
      rw [isCandidate_succ, BitVec.getLsbD_of_ge _ _ (by omega)] at h
      cases h
    omega

theorem maxlenUpTo_le (m : BitVec 8) (n : Nat) : maxlenUpTo m n ≤ n := by
  induction n with
  | zero => simp [maxlenUpTo]
  | succ n ih => unfold maxlenUpTo; split <;> omega

theorem le_maxlenUpTo (m : BitVec 8) (n len : Nat) (h : isCandidate m len = true) (hn : len ≤ n) :
    len ≤ maxlenUpTo m n := by
  induction n with
  | zero => cases len with
    | zero => exact Nat.le_refl 0
    | succ k => omega
  | succ n ih =>
    unfold maxlenUpTo
    split
    · exact hn
    · rename_i hbit
      by_cases hl : len = n + 1
      · subst hl; rw [isCandidate_succ] at h; exact absurd h hbit
      · exact ih (by omega)

theorem isCandidate_maxlenUpTo (m : BitVec 8) (n : Nat) :
    maxlenUpTo m n = 0 ∨ isCandidate m (maxlenUpTo m n) = true := by
  induction n with
  | zero => exact Or.inl rfl
  | succ n ih =>
    unfold maxlenUpTo
    split
    · rename_i hbit; exact Or.inr hbit
    · exact ih

/-- `maxlen` is at most 8 (42_unpack.md R154). -/
theorem maxlen_le (m : BitVec 8) : maxlen m ≤ 8 := maxlenUpTo_le m 8

/-- Every candidate length is at most `maxlen` (42_unpack.md R152). -/
theorem le_maxlen {m : BitVec 8} {len : Nat} (h : isCandidate m len = true) : len ≤ maxlen m :=
  le_maxlenUpTo m 8 len h (isCandidate_range h).2

/-- `maxlen` is itself a candidate length, or 0. -/
theorem isCandidate_maxlen (m : BitVec 8) : maxlen m = 0 ∨ isCandidate m (maxlen m) = true :=
  isCandidate_maxlenUpTo m 8

/-- `maxlen(m)` is 0 exactly when m = 0 (00_scope.md R10). -/
theorem maxlen_eq_zero_iff (m : BitVec 8) : maxlen m = 0 ↔ m = 0 := by revert m; decide

/-- More candidates, no smaller `maxlen`. -/
theorem maxlen_mono {m m' : BitVec 8} (h : ∀ len, isCandidate m len = true → isCandidate m' len = true) :
    maxlen m ≤ maxlen m' := by
  rcases isCandidate_maxlen m with h₀ | h₁
  · omega
  · exact le_maxlen (h _ h₁)

end Sys2Proof.Machine
end

