-- ==== Sys2Proof/Laws/Decode.lean ====
section
/-! SUPPORT. The laws of the command word's fields (spec/30_encoding.md R80, R83) and the decoder on a word given by its
fields. -/

namespace Sys2Proof

section Fields
variable (op a b c : Byte)

@[simp] theorem opField_wordOf : opField (wordOf op a b c) = op := by
  simp only [opField, wordOf]; ext i hi; simp; grind

@[simp] theorem aField_wordOf : aField (wordOf op a b c) = a := by
  simp only [aField, wordOf]; ext i hi; simp; grind

@[simp] theorem bField_wordOf : bField (wordOf op a b c) = b := by
  simp only [bField, wordOf]; ext i hi; simp; grind

@[simp] theorem cField_wordOf : cField (wordOf op a b c) = c := by
  simp only [cField, wordOf]; ext i hi; simp; grind

end Fields

/-- A word is its four fields (30_encoding.md R80). -/
theorem wordOf_fields (w : Word) : wordOf (opField w) (aField w) (bField w) (cField w) = w := by
  simp only [wordOf, opField, aField, bField, cField]
  ext i hi
  simp
  grind

/-- Two words with the same fields are the same word. -/
theorem wordOf_inj {op a b c op' a' b' c' : Byte} :
    wordOf op a b c = wordOf op' a' b' c' ↔ op = op' ∧ a = a' ∧ b = b' ∧ c = c' := by
  constructor
  · intro h
    exact ⟨by simpa using congrArg opField h, by simpa using congrArg aField h,
      by simpa using congrArg bField h, by simpa using congrArg cField h⟩
  · rintro ⟨rfl, rfl, rfl, rfl⟩; rfl

/-- The decoder on a word given by its fields (30_encoding.md R84). -/
theorem decode_wordOf (op a b c : Byte) :
    decode (wordOf op a b c) =
      match formatOf op with
      | none => none
      | some f => if unusedFieldsZero f a b c then commandOf op a b c else none := by
  simp only [decode, opField_wordOf, aField_wordOf, bField_wordOf, cField_wordOf] <;> rfl

/-- An opcode has a format exactly when it is 0x00 to 0x09 (30_encoding.md R82, R85). -/
theorem formatOf_eq_none_iff (op : Byte) : formatOf op = none ↔ 0x09 < op.toNat := by
  revert op; decide

/-- Masking goes field by field. -/
theorem and_eq_iff_fields (v m p : Word) :
    v &&& m = p ↔
      opField v &&& opField m = opField p ∧ aField v &&& aField m = aField p ∧
        bField v &&& bField m = bField p ∧ cField v &&& cField m = cField p := by
  conv_lhs => rw [← wordOf_fields (v &&& m), ← wordOf_fields p, wordOf_inj]
  simp only [opField, aField, bField, cField, BitVec.extractLsb'_and]

/-- A table row's match and mask, field by field (30_encoding.md R82). -/
theorem OpRow.matches_wordOf (r : OpRow) (op a b c : Byte) :
    r.matches (wordOf op a b c) = true ↔
      op &&& opField r.mask = opField r.pattern ∧ a &&& aField r.mask = aField r.pattern ∧
        b &&& bField r.mask = bField r.pattern ∧ c &&& cField r.mask = cField r.pattern := by
  simp only [OpRow.matches, beq_iff_eq, and_eq_iff_fields, opField_wordOf, aField_wordOf, bField_wordOf,
    cField_wordOf]

end Sys2Proof
end

