-- ==== Sys2Proof/Laws/State.lean ====
section
/-! SUPPORT. The small lemmas of the state updates: one per field and update, all by rfl, so that no later proof unfolds
a record update; and what ending a command and the gate do. -/

namespace Sys2Proof.Machine

section Raise
variable (k : ErrorKind) (w : Word) (e : Engine)
@[simp] theorem raise_pbuf : (raise k w e).pbuf = e.pbuf := rfl
@[simp] theorem raise_plen : (raise k w e).plen = e.plen := rfl
@[simp] theorem raise_ubuf : (raise k w e).ubuf = e.ubuf := rfl
@[simp] theorem raise_ulen : (raise k w e).ulen = e.ulen := rfl
@[simp] theorem raise_rem : (raise k w e).rem = e.rem := rfl
@[simp] theorem raise_trail : (raise k w e).trail = e.trail := rfl
@[simp] theorem raise_vlens : (raise k w e).vlens = e.vlens := rfl
@[simp] theorem raise_enc : (raise k w e).enc = e.enc := rfl
@[simp] theorem raise_dec : (raise k w e).dec = e.dec := rfl
@[simp] theorem raise_err : (raise k w e).err = errorCode k := rfl
@[simp] theorem raise_einfo : (raise k w e).einfo = w := rfl
end Raise

section Load
variable (sym len val : Byte) (e : Engine)
@[simp] theorem loadEntry_pbuf : (loadEntry sym len val e).pbuf = e.pbuf := rfl
@[simp] theorem loadEntry_plen : (loadEntry sym len val e).plen = e.plen := rfl
@[simp] theorem loadEntry_ubuf : (loadEntry sym len val e).ubuf = e.ubuf := rfl
@[simp] theorem loadEntry_ulen : (loadEntry sym len val e).ulen = e.ulen := rfl
@[simp] theorem loadEntry_rem : (loadEntry sym len val e).rem = e.rem := rfl
@[simp] theorem loadEntry_trail : (loadEntry sym len val e).trail = e.trail := rfl
@[simp] theorem loadEntry_err : (loadEntry sym len val e).err = e.err := rfl
@[simp] theorem loadEntry_einfo : (loadEntry sym len val e).einfo = e.einfo := rfl
end Load

section Append
variable (c : EncEntry) (e : Engine)
@[simp] theorem appendCodeword_ubuf : (appendCodeword c e).ubuf = e.ubuf := rfl
@[simp] theorem appendCodeword_ulen : (appendCodeword c e).ulen = e.ulen := rfl
@[simp] theorem appendCodeword_rem : (appendCodeword c e).rem = e.rem := rfl
@[simp] theorem appendCodeword_trail : (appendCodeword c e).trail = e.trail := rfl
@[simp] theorem appendCodeword_vlens : (appendCodeword c e).vlens = e.vlens := rfl
@[simp] theorem appendCodeword_enc : (appendCodeword c e).enc = e.enc := rfl
@[simp] theorem appendCodeword_dec : (appendCodeword c e).dec = e.dec := rfl
@[simp] theorem appendCodeword_err : (appendCodeword c e).err = e.err := rfl
@[simp] theorem appendCodeword_einfo : (appendCodeword c e).einfo = e.einfo := rfl
end Append

section Drop
variable (e : Engine)
@[simp] theorem dropLeadingByte_ubuf : (dropLeadingByte e).ubuf = e.ubuf := rfl
@[simp] theorem dropLeadingByte_ulen : (dropLeadingByte e).ulen = e.ulen := rfl
@[simp] theorem dropLeadingByte_rem : (dropLeadingByte e).rem = e.rem := rfl
@[simp] theorem dropLeadingByte_trail : (dropLeadingByte e).trail = e.trail := rfl
@[simp] theorem dropLeadingByte_vlens : (dropLeadingByte e).vlens = e.vlens := rfl
@[simp] theorem dropLeadingByte_enc : (dropLeadingByte e).enc = e.enc := rfl
@[simp] theorem dropLeadingByte_dec : (dropLeadingByte e).dec = e.dec := rfl
@[simp] theorem dropLeadingByte_err : (dropLeadingByte e).err = e.err := rfl
@[simp] theorem dropLeadingByte_einfo : (dropLeadingByte e).einfo = e.einfo := rfl
end Drop

section Shift
variable (b : Bool) (e : Engine)
@[simp] theorem shiftIn_pbuf : (shiftIn b e).pbuf = e.pbuf := rfl
@[simp] theorem shiftIn_plen : (shiftIn b e).plen = e.plen := rfl
@[simp] theorem shiftIn_rem : (shiftIn b e).rem = e.rem := rfl
@[simp] theorem shiftIn_trail : (shiftIn b e).trail = e.trail := rfl
@[simp] theorem shiftIn_vlens : (shiftIn b e).vlens = e.vlens := rfl
@[simp] theorem shiftIn_enc : (shiftIn b e).enc = e.enc := rfl
@[simp] theorem shiftIn_dec : (shiftIn b e).dec = e.dec := rfl
@[simp] theorem shiftIn_err : (shiftIn b e).err = e.err := rfl
@[simp] theorem shiftIn_einfo : (shiftIn b e).einfo = e.einfo := rfl
end Shift

section Hit
variable (e : Engine)
@[simp] theorem consumeHit_pbuf : (consumeHit e).pbuf = e.pbuf := rfl
@[simp] theorem consumeHit_plen : (consumeHit e).plen = e.plen := rfl
@[simp] theorem consumeHit_ubuf : (consumeHit e).ubuf = 0 := rfl
@[simp] theorem consumeHit_ulen : (consumeHit e).ulen = 0 := rfl
@[simp] theorem consumeHit_rem : (consumeHit e).rem = e.rem - 1 := rfl
@[simp] theorem consumeHit_trail : (consumeHit e).trail = e.trail := rfl
@[simp] theorem consumeHit_vlens : (consumeHit e).vlens = e.vlens := rfl
@[simp] theorem consumeHit_enc : (consumeHit e).enc = e.enc := rfl
@[simp] theorem consumeHit_dec : (consumeHit e).dec = e.dec := rfl
@[simp] theorem consumeHit_err : (consumeHit e).err = e.err := rfl
@[simp] theorem consumeHit_einfo : (consumeHit e).einfo = e.einfo := rfl
end Hit

/-- The eight kinds have eight codes (60_exceptions.md R171). -/
theorem errorCode_inj {k k' : ErrorKind} : errorCode k = errorCode k' ↔ k = k' := by
  cases k <;> cases k' <;> simp [errorCode]

/-- Every code is 1..8 (60_exceptions.md R171). -/
theorem errorCode_range (k : ErrorKind) : 1 ≤ (errorCode k).toNat ∧ (errorCode k).toNat ≤ 8 := by
  cases k <;> decide

/-- Clearing keeps nothing (40_control_and_table.md R111). -/
@[simp] theorem clearEngine_eq_reset (e : Engine) : clearEngine e = Engine.reset := rfl

/-- A command always ends in a next state: the effect's engine, and its outputs after the earlier ones. -/
@[simp] theorem commit_eq (s : State) (r : Engine × List Output) :
    commit s r = .next { s with engine := r.1, out := s.out ++ r.2 } := rfl

/-- With no error recorded the gate is open (60_exceptions.md R174). -/
theorem whenNoError_of_none {e : Engine} (f : Engine → Engine × List Output) (h : e.err = 0) :
    whenNoError f e = f e := if_pos h

/-- With an error recorded the gate discards (60_exceptions.md R174). -/
theorem whenNoError_of_error {e : Engine} (f : Engine → Engine × List Output) (h : e.err ≠ 0) :
    whenNoError f e = (e, []) := if_neg h

end Sys2Proof.Machine
end

