-- ==== Sys2Proof/Laws/Table.lean ====
section
/-! SUPPORT. The laws of table slots: a read after a write, the canonical form is kept, equal reads make equal canonical
tables, writes to different slots commute; and the two indices are injective (spec/10_state.md R34, R35). -/

namespace Sys2Proof.Machine

variable {α : Type}

@[simp] theorem Table.get_nil (k : Nat) : Table.get k ([] : Table α) = none := rfl

/-- A read of the slot just written gives the value written. -/
@[simp] theorem Table.get_put_same (k : Nat) (x : α) (t : Table α) : Table.get k (Table.put k x t) = some x := by
  induction t with
  | nil => simp [Table.put, Table.get]
  | cons slot rest ih =>
    obtain ⟨j, y⟩ := slot
    by_cases h₁ : k < j
    · simp [Table.put, Table.get, h₁]
    · by_cases h₂ : k = j
      · simp [Table.put, Table.get, h₂]
      · simp [Table.put, Table.get, h₁, h₂, ih]

/-- A write leaves every other slot alone. -/
theorem Table.get_put_other {j k : Nat} (h : j ≠ k) (x : α) (t : Table α) :
    Table.get j (Table.put k x t) = Table.get j t := by
  induction t with
  | nil => simp [Table.put, Table.get, h]
  | cons slot rest ih =>
    obtain ⟨i, y⟩ := slot
    by_cases h₁ : k < i
    · simp [Table.put, Table.get, h₁, h]
    · by_cases h₂ : k = i
      · subst h₂; simp [Table.put, Table.get, h]
      · simp [Table.put, Table.get, h₁, h₂, ih]

/-- A read after a write, both cases. -/
theorem Table.get_put (j k : Nat) (x : α) (t : Table α) :
    Table.get j (Table.put k x t) = if j = k then some x else Table.get j t := by
  by_cases h : j = k
  · subst h; simp
  · rw [Table.get_put_other h, if_neg h]

theorem Table.risingAbove_cons (k j : Nat) (y : α) (rest : Table α) :
    Table.risingAbove k ((j, y) :: rest) = true ↔ k < j ∧ Table.risingAbove j rest = true := by
  simp [Table.risingAbove]

theorem Table.risingAbove_put {k b : Nat} (x : α) (t : Table α) (hb : b < k) (h : Table.risingAbove b t = true) :
    Table.risingAbove b (Table.put k x t) = true := by
  induction t generalizing b with
  | nil => simp [Table.put, Table.risingAbove, hb]
  | cons slot rest ih =>
    obtain ⟨j, y⟩ := slot
    rw [Table.risingAbove_cons] at h
    by_cases h₁ : k < j
    · simp [Table.put, h₁, Table.risingAbove_cons, hb, h.2]
    · by_cases h₂ : k = j
      · subst h₂; simp [Table.put, Table.risingAbove_cons, hb, h.2]
      · have : j < k := by omega
        simp [Table.put, h₁, h₂, Table.risingAbove_cons, h.1, ih this h.2]

/-- What the canonical form says of a nonempty table. -/
theorem Table.wf_cons (lo hi j : Nat) (y : α) (rest : Table α) :
    Table.wf lo hi ((j, y) :: rest) = true ↔
      (lo ≤ j ∧ j < hi) ∧ Table.within lo hi rest = true ∧ Table.risingAbove j rest = true := by
  simp [Table.wf, Table.within, and_assoc]

@[simp] theorem Table.wf_nil (lo hi : Nat) : Table.wf lo hi ([] : Table α) = true := rfl

theorem Table.within_put {lo hi k : Nat} (x : α) (t : Table α) (hk : lo ≤ k ∧ k < hi)
    (h : Table.within lo hi t = true) : Table.within lo hi (Table.put k x t) = true := by
  induction t with
  | nil => simp [Table.put, Table.within, hk]
  | cons slot rest ih =>
    obtain ⟨j, y⟩ := slot
    simp only [Table.within, List.all_cons, Bool.and_eq_true, decide_eq_true_eq] at h ih
    unfold Table.put
    split_ifs <;> simp only [Table.within, List.all_cons, Bool.and_eq_true, decide_eq_true_eq]
    · exact ⟨hk, h⟩
    · exact ⟨hk, h.2⟩
    · exact ⟨h.1, ih h.2⟩

/-- A write to a slot the table has keeps the canonical form. -/
theorem Table.put_wf {lo hi k : Nat} (x : α) (t : Table α) (hk : lo ≤ k ∧ k < hi) (h : Table.wf lo hi t = true) :
    Table.wf lo hi (Table.put k x t) = true := by
  cases t with
  | nil => simp [Table.put, Table.wf, Table.within, Table.risingAbove, hk]
  | cons slot rest =>
    obtain ⟨j, y⟩ := slot
    obtain ⟨hj, hw, hr⟩ := (Table.wf_cons lo hi j y rest).1 h
    by_cases h₁ : k < j
    · simp only [Table.put, h₁, if_true, Table.wf_cons, Table.risingAbove_cons]
      refine ⟨hk, ?_, trivial, hr⟩
      simpa [Table.within, hj] using hw
    · by_cases h₂ : k = j
      · subst h₂; simp [Table.put, Table.wf_cons, hj, hw, hr]
      · have hlt : j < k := by omega
        simp only [Table.put, h₁, if_false, h₂, Table.wf_cons]
        exact ⟨hj, Table.within_put x rest hk hw, Table.risingAbove_put x rest hlt hr⟩

theorem Table.get_of_risingAbove {k b : Nat} (t : Table α) (hk : k ≤ b) (h : Table.risingAbove b t = true) :
    Table.get k t = none := by
  induction t generalizing b with
  | nil => rfl
  | cons slot rest ih =>
    obtain ⟨j, y⟩ := slot
    rw [Table.risingAbove_cons] at h
    have : k ≠ j := by omega
    simp [Table.get, this, ih (by omega : k ≤ j) h.2]

theorem Table.ext_of_risingAbove {b : Nat} (t u : Table α) (ht : Table.risingAbove b t = true)
    (hu : Table.risingAbove b u = true) (h : ∀ k, Table.get k t = Table.get k u) : t = u := by
  induction t generalizing b u with
  | nil =>
    cases u with
    | nil => rfl
    | cons slot rest => have := h slot.1; simp [Table.get] at this
  | cons slot rest ih =>
    obtain ⟨j, y⟩ := slot
    cases u with
    | nil => have := h j; simp [Table.get] at this
    | cons slot' rest' =>
      obtain ⟨i, z⟩ := slot'
      rw [Table.risingAbove_cons] at ht hu
      have hij : j = i := by
        rcases Nat.lt_trichotomy j i with hlt | heq | hgt
        · have h₁ := h j
          rw [Table.get_of_risingAbove ((i, z) :: rest') (Nat.le_refl j)
            ((Table.risingAbove_cons j i z rest').2 ⟨hlt, hu.2⟩)] at h₁
          simp [Table.get] at h₁
        · exact heq
        · have h₁ := h i
          rw [Table.get_of_risingAbove ((j, y) :: rest) (Nat.le_refl i)
            ((Table.risingAbove_cons i j y rest).2 ⟨hgt, ht.2⟩)] at h₁
          simp [Table.get] at h₁
      subst hij
      have hyz : y = z := by have h₁ := h j; simpa [Table.get] using h₁
      subst hyz
      have hrest : rest = rest' := by
        refine ih rest' ht.2 hu.2 fun k => ?_
        by_cases hk : k ≤ j
        · rw [Table.get_of_risingAbove rest hk ht.2, Table.get_of_risingAbove rest' hk hu.2]
        · have h₁ := h k
          have : k ≠ j := by omega
          simpa [Table.get, this] using h₁
      rw [hrest]

/-- Canonical tables are equal when every slot reads the same. -/
theorem Table.ext_of_wf {lo hi : Nat} (t u : Table α) (ht : Table.wf lo hi t = true) (hu : Table.wf lo hi u = true)
    (h : ∀ k, Table.get k t = Table.get k u) : t = u := by
  cases t with
  | nil =>
    cases u with
    | nil => rfl
    | cons slot rest => have := h slot.1; simp [Table.get] at this
  | cons slot rest =>
    obtain ⟨j, y⟩ := slot
    cases u with
    | nil => have := h j; simp [Table.get] at this
    | cons slot' rest' =>
      obtain ⟨i, z⟩ := slot'
      have h₁ := ((Table.wf_cons lo hi j y rest).1 ht).2.2
      have h₂ := ((Table.wf_cons lo hi i z rest').1 hu).2.2
      have hij : j = i := by
        rcases Nat.lt_trichotomy j i with hlt | heq | hgt
        · have hg := h j
          rw [Table.get_of_risingAbove ((i, z) :: rest') (Nat.le_refl j)
            ((Table.risingAbove_cons j i z rest').2 ⟨hlt, h₂⟩)] at hg
          simp [Table.get] at hg
        · exact heq
        · have hg := h i
          rw [Table.get_of_risingAbove ((j, y) :: rest) (Nat.le_refl i)
            ((Table.risingAbove_cons i j y rest).2 ⟨hgt, h₁⟩)] at hg
          simp [Table.get] at hg
      subst hij
      have hyz : y = z := by have hg := h j; simpa [Table.get] using hg
      subst hyz
      congr 1
      refine Table.ext_of_risingAbove rest rest' h₁ h₂ fun k => ?_
      by_cases hk : k ≤ j
      · rw [Table.get_of_risingAbove rest hk h₁, Table.get_of_risingAbove rest' hk h₂]
      · have hg := h k
        have : k ≠ j := by omega
        simpa [Table.get, this] using hg

/-- Writes to different slots of a canonical table commute. -/
theorem Table.put_comm {lo hi i j : Nat} (x y : α) (t : Table α) (hij : i ≠ j) (hi' : lo ≤ i ∧ i < hi)
    (hj : lo ≤ j ∧ j < hi) (h : Table.wf lo hi t = true) :
    Table.put i x (Table.put j y t) = Table.put j y (Table.put i x t) := by
  refine Table.ext_of_wf _ _ (Table.put_wf x _ hi' (Table.put_wf y t hj h))
    (Table.put_wf y _ hj (Table.put_wf x t hi' h)) fun k => ?_
  simp only [Table.get_put]
  split_ifs with h₁ h₂ <;> first | rfl | omega

/-- Writing the same slot twice with the same value equals writing it once. -/
theorem Table.put_put_same (k : Nat) (x : α) (t : Table α) :
    Table.put k x (Table.put k x t) = Table.put k x t := by
  induction t with
  | nil => simp [Table.put]
  | cons slot rest ih =>
    obtain ⟨j, y⟩ := slot
    by_cases h₁ : k < j
    · simp [Table.put, h₁]
    · by_cases h₂ : k = j
      · simp [Table.put, h₂]
      · simp [Table.put, h₁, h₂, ih]

/-! ### The two indices -/

/-- ENC's index is the symbol, so different symbols have different slots. -/
theorem encIndex_inj {a b : Byte} : encIndex a = encIndex b ↔ a = b := BitVec.toNat_inj

theorem encIndex_range (a : Byte) : 0 ≤ encIndex a ∧ encIndex a < Config.encSlots :=
  ⟨Nat.zero_le _, a.isLt⟩

/-- DEC's flat index has no collisions (10_state.md R35). -/
theorem decIndex_inj {l v m u : Nat} (hv : v < 2 ^ l) (hu : u < 2 ^ m) :
    decIndex l v = decIndex m u ↔ l = m ∧ v = u := by
  constructor
  · intro h
    unfold decIndex at h
    have hlm : l = m := by
      rcases Nat.lt_trichotomy l m with hlt | heq | hgt
      · have : 2 ^ (l + 1) ≤ 2 ^ m := Nat.pow_le_pow_right (by omega) hlt
        rw [Nat.pow_succ] at this; omega
      · exact heq
      · have : 2 ^ (m + 1) ≤ 2 ^ l := Nat.pow_le_pow_right (by omega) hgt
        rw [Nat.pow_succ] at this; omega
    subst hlm
    exact ⟨rfl, by omega⟩
  · rintro ⟨rfl, rfl⟩; rfl

/-- DEC's flat index runs over 2..511 (10_state.md R35). -/
theorem decIndex_range {l v : Nat} (h₁ : 1 ≤ l) (h₈ : l ≤ 8) (hv : v < 2 ^ l) :
    Config.decFirst ≤ decIndex l v ∧ decIndex l v < Config.decFirst + Config.decSlots := by
  have hlo : 2 ^ 1 ≤ 2 ^ l := Nat.pow_le_pow_right (by omega) h₁
  have hhi : 2 ^ l ≤ 2 ^ 8 := Nat.pow_le_pow_right (by omega) h₈
  unfold decIndex
  simp only [Config.decFirst, Config.decSlots]
  omega

end Sys2Proof.Machine
end

