-- ==== Sys2Proof/Laws/TableLoad.lean ====
section
/-! SUPPORT. The checks of `LDE` as inequalities, and what a load leaves in the two tables and in VLENS
(spec/40_control_and_table.md R113). -/

namespace Sys2Proof.Machine

/-- The length check of R113. -/
theorem lengthSupported_iff (len : Byte) : lengthSupported len = true ↔ 1 ≤ len.toNat ∧ len.toNat ≤ 8 := by
  simp [lengthSupported]

/-- The value check of R113: `(C >> B) == 0` says C < 2^B. -/
theorem valueFits_iff (len val : Byte) : valueFits len val = true ↔ val.toNat < 2 ^ len.toNat := by
  simp [valueFits, Nat.shiftRight_eq_div_pow]

/-- What an `LDE` that runs can do (R113). -/
theorem ldeEffect_cases (w : Word) (sym len val : Byte) (e : Engine) :
    ((len.toNat = 0 ∨ 8 < len.toNat) ∧
      ldeEffect w sym len val e = (raise .unsupportedCodewordLength w e, [])) ∨
    (1 ≤ len.toNat ∧ len.toNat ≤ 8 ∧ 2 ^ len.toNat ≤ val.toNat ∧
      ldeEffect w sym len val e = (raise .badCodewordValue w e, [])) ∨
    (1 ≤ len.toNat ∧ len.toNat ≤ 8 ∧ val.toNat < 2 ^ len.toNat ∧
      ldeEffect w sym len val e = (loadEntry sym len val e, [])) := by
  by_cases hl : lengthSupported len = true
  · have hr := (lengthSupported_iff len).1 hl
    by_cases hv : valueFits len val = true
    · exact .inr (.inr ⟨hr.1, hr.2, (valueFits_iff len val).1 hv, by simp [ldeEffect, hl, hv]⟩)
    · have hge : ¬ val.toNat < 2 ^ len.toNat := fun h => hv ((valueFits_iff len val).2 h)
      exact .inr (.inl ⟨hr.1, hr.2, by omega, by simp [ldeEffect, hl, hv]⟩)
  · have hr : ¬ (1 ≤ len.toNat ∧ len.toNat ≤ 8) := fun h => hl ((lengthSupported_iff len).2 h)
    exact .inl ⟨by omega, by simp [ldeEffect, hl]⟩

/-- Setting bit len-1 adds exactly the length len to the candidates. -/
theorem isCandidate_setBit (m : BitVec 8) (len l : Nat) (h₁ : 1 ≤ len) (h₈ : len ≤ 8) :
    isCandidate (m ||| (1#8 <<< (len - 1))) l = (decide (l = len) || isCandidate m l) := by
  cases l with
  | zero => simp; omega
  | succ n =>
    simp only [isCandidate_succ, BitVec.getLsbD_or, BitVec.getLsbD_shiftLeft]
    rw [Bool.eq_iff_iff]; simp
    by_cases hn : n < 8
    · simp [hn]
      constructor
      · rintro (h | ⟨h, h'⟩)
        · exact .inr h
        · left; omega
      · rintro (h | h)
        · right; subst h; simp
        · exact .inl h
    · simp [hn, BitVec.getLsbD_of_ge m n (by omega)]; omega

/-- ENC after a load. -/
theorem encLookup_loadEntry (sym len val x : Byte) (e : Engine) :
    encLookup (loadEntry sym len val e) x =
      if x = sym then some { len := len.setWidth 4, val := val } else encLookup e x := by
  simp [encLookup, loadEntry, Table.get_put, encIndex_inj]

/-- DEC after a load. -/
theorem decLookup_loadEntry (sym : Byte) {len val : Byte} {l v : Nat} (e : Engine) (hval : val.toNat < 2 ^ len.toNat)
    (hv : v < 2 ^ l) :
    decLookup (loadEntry sym len val e) l v =
      if l = len.toNat ∧ v = val.toNat then some sym else decLookup e l v := by
  simp [decLookup, loadEntry, Table.get_put, decIndex_inj hv hval]

/-- VLENS after a load. -/
theorem isCandidate_loadEntry (sym val : Byte) {len : Byte} (l : Nat) (e : Engine) (h₁ : 1 ≤ len.toNat)
    (h₈ : len.toNat ≤ 8) :
    isCandidate (loadEntry sym len val e).vlens l = (decide (l = len.toNat) || isCandidate e.vlens l) :=
  isCandidate_setBit _ _ _ h₁ h₈

/-- A length of 1..8 keeps its value in the four bits of an ENC entry (10_state.md R34). -/
theorem entryLength_toNat {len : Byte} (h : len.toNat ≤ 8) : (len.setWidth 4).toNat = len.toNat := by
  simp only [BitVec.toNat_setWidth]; omega

end Sys2Proof.Machine
end

