-- ==== Sys2Proof/Laws/Invariant.lean ====
section
/-! SUPPORT. The table invariants of spec/10_state.md R36 under a load, and under any change that leaves the tables alone. -/

namespace Sys2Proof.Machine

/-- The invariants read ENC, DEC and VLENS only. -/
theorem Engine.TablesOk.congr {e e' : Engine} (ht : e.TablesOk) (h₁ : e'.enc = e.enc) (h₂ : e'.dec = e.dec)
    (h₃ : e'.vlens = e.vlens) : e'.TablesOk := by
  obtain ⟨a, b, c, d, f⟩ := ht
  refine ⟨by rw [h₁]; exact a, by rw [h₂]; exact b, ?_, ?_, ?_⟩
  · simpa only [decLookup, h₂, h₃] using c
  · simpa only [encLookup, decLookup, h₁, h₂] using d
  · simpa only [encLookup, h₁] using f

/-- A load that passes its checks keeps them (40_control_and_table.md R113). -/
theorem loadEntry_tablesOk {e : Engine} (sym : Byte) {len val : Byte} (h₁ : 1 ≤ len.toNat) (h₈ : len.toNat ≤ 8)
    (hval : val.toNat < 2 ^ len.toNat) (ht : e.TablesOk) : (loadEntry sym len val e).TablesOk := by
  refine ⟨Table.put_wf _ _ (encIndex_range sym) ht.encCanonical,
    Table.put_wf _ _ (decIndex_range h₁ h₈ hval) ht.decCanonical, ?_, ?_, ?_⟩
  · intro l g₁ g₈
    rw [isCandidate_loadEntry _ _ _ _ h₁ h₈, Bool.or_eq_true, decide_eq_true_eq, ht.candidateIffLoaded l g₁ g₈]
    constructor
    · rintro (rfl | ⟨u, hu, hs⟩)
      · exact ⟨val.toNat, hval, by rw [decLookup_loadEntry _ _ hval hval]; simp⟩
      · refine ⟨u, hu, ?_⟩
        rw [decLookup_loadEntry _ _ hval hu]
        split
        · rfl
        · exact hs
    · rintro ⟨u, hu, hs⟩
      rw [decLookup_loadEntry _ _ hval hu] at hs
      split at hs
      · rename_i h; exact .inl h.1
      · exact .inr ⟨u, hu, hs⟩
  · intro x c hc
    rw [encLookup_loadEntry] at hc
    split at hc
    · cases hc
      simp only [entryLength_toNat h₈]
      rw [decLookup_loadEntry _ _ hval hval]; simp
    · have hl := (ht.encLegal x c hc).2.2
      rw [decLookup_loadEntry _ _ hval hl]
      split
      · rfl
      · exact ht.encInDec x c hc
  · intro x c hc
    rw [encLookup_loadEntry] at hc
    split at hc
    · cases hc
      simp only [entryLength_toNat h₈]
      exact ⟨h₁, h₈, hval⟩
    · exact ht.encLegal x c hc

/-- The tables of the reset state meet the invariants (10_state.md R40). -/
theorem reset_tablesOk : Engine.reset.TablesOk := by
  refine ⟨by decide, by decide, ?_, ?_, ?_⟩
  · intro len h₁ h₈
    constructor
    · intro h
      have : isCandidate Engine.reset.vlens len = false := by
        interval_cases len <;> rfl
      rw [this] at h; cases h
    · rintro ⟨v, _, hs⟩; cases hs
  · intro sym c hc; cases hc
  · intro sym c hc; cases hc

end Sys2Proof.Machine
end

