-- ==== Sys2Proof/Laws/Pack.lean ====
section
/-! SUPPORT. The packer's operations as arithmetic (spec/41_pack.md R133) and as bit-strings (R131, R132). -/

namespace Sys2Proof.Machine

/-- The live bits of PBUF (10_state.md R21). -/
def packBits (e : Engine) : List Bool := strOf e.plen.toNat e.pbuf.toNat

/-- `PBUF << len | val` loses no bit: it is PBUF * 2^len + val (41_pack.md R133). -/
theorem appendCodeword_pbuf_toNat {e : Engine} {c : EncEntry} (hp : e.plen.toNat ≤ 8)
    (hb : e.pbuf.toNat < 2 ^ e.plen.toNat) (hl : c.len.toNat ≤ 8) (hv : c.val.toNat < 2 ^ c.len.toNat) :
    (appendCodeword c e).pbuf.toNat = e.pbuf.toNat * 2 ^ c.len.toNat + c.val.toNat := by
  have h8 : 2 ^ e.plen.toNat ≤ 2 ^ 8 := Nat.pow_le_pow_right (by omega) hp
  have hl8 : 2 ^ c.len.toNat ≤ 2 ^ 8 := Nat.pow_le_pow_right (by omega) hl
  have hsmall : e.pbuf.toNat * 2 ^ c.len.toNat < 2 ^ 16 := by
    calc e.pbuf.toNat * 2 ^ c.len.toNat < 2 ^ e.plen.toNat * 2 ^ c.len.toNat :=
          Nat.mul_lt_mul_of_pos_right hb (Nat.two_pow_pos _)
      _ ≤ 2 ^ 8 * 2 ^ 8 := Nat.mul_le_mul h8 hl8
      _ = 2 ^ 16 := by norm_num
  simp only [appendCodeword, BitVec.toNat_or, BitVec.toNat_shiftLeft, Nat.shiftLeft_eq, BitVec.toNat_setWidth]
  rw [Nat.mod_eq_of_lt hsmall, Nat.mod_eq_of_lt (by omega : c.val.toNat < 2 ^ 16), Nat.mul_comm,
    ← Nat.two_pow_add_eq_or_of_lt hv]

/-- `PLEN + len` does not wrap in 5 bits (41_pack.md R133). -/
theorem appendCodeword_plen_toNat {e : Engine} {c : EncEntry} (hp : e.plen.toNat ≤ 8) (hl : c.len.toNat ≤ 8) :
    (appendCodeword c e).plen.toNat = e.plen.toNat + c.len.toNat := by
  simp only [appendCodeword, BitVec.toNat_add, BitVec.toNat_setWidth]
  omega

/-- The appended buffer is live in its new length. -/
theorem appendCodeword_live {e : Engine} {c : EncEntry} (hp : e.plen.toNat ≤ 8)
    (hb : e.pbuf.toNat < 2 ^ e.plen.toNat) (hl : c.len.toNat ≤ 8) (hv : c.val.toNat < 2 ^ c.len.toNat) :
    (appendCodeword c e).pbuf.toNat < 2 ^ (appendCodeword c e).plen.toNat := by
  rw [appendCodeword_pbuf_toNat hp hb hl hv, appendCodeword_plen_toNat hp hl, Nat.pow_add]
  have := Nat.mul_le_mul_right (2 ^ c.len.toNat) (Nat.succ_le_of_lt hb)
  rw [Nat.succ_mul] at this
  omega

/-- Appending a codeword appends its bits. -/
theorem packBits_appendCodeword {e : Engine} {c : EncEntry} (hp : e.plen.toNat ≤ 8)
    (hb : e.pbuf.toNat < 2 ^ e.plen.toNat) (hl : c.len.toNat ≤ 8) (hv : c.val.toNat < 2 ^ c.len.toNat) :
    packBits (appendCodeword c e) = packBits e ++ c.bits := by
  simp only [packBits, appendCodeword_pbuf_toNat hp hb hl hv, appendCodeword_plen_toNat hp hl, EncEntry.bits]
  exact strOf_append _ _ _ _ hv

/-- `PLEN - 8` does not go below 0 (41_pack.md R133). -/
theorem dropLeadingByte_plen_toNat {e : Engine} (h : 8 < e.plen.toNat) :
    (dropLeadingByte e).plen.toNat = e.plen.toNat - 8 := by
  have hlt := e.plen.isLt
  have h8 : (8 : BitVec 5).toNat = 8 := rfl
  simp only [dropLeadingByte, BitVec.toNat_sub, h8]
  omega

/-- Only the live bits stay. -/
theorem dropLeadingByte_pbuf_toNat (e : Engine) :
    (dropLeadingByte e).pbuf.toNat = e.pbuf.toNat % 2 ^ (e.plen.toNat - 8) := by
  have hlt := e.pbuf.isLt
  simp only [dropLeadingByte, BitVec.toNat_ofNat]
  exact Nat.mod_eq_of_lt (Nat.lt_of_le_of_lt (Nat.mod_le _ _) hlt)

/-- The byte emitted is the buffer without its last PLEN - 8 bits. -/
theorem leadingByte_toNat {e : Engine} (h : 8 < e.plen.toNat) (hb : e.pbuf.toNat < 2 ^ e.plen.toNat) :
    (leadingByte e).toNat = e.pbuf.toNat / 2 ^ (e.plen.toNat - 8) := by
  simp only [leadingByte, BitVec.toNat_setWidth, BitVec.toNat_ushiftRight, Nat.shiftRight_eq_div_pow]
  refine Nat.mod_eq_of_lt ?_
  rw [Nat.div_lt_iff_lt_mul (Nat.two_pow_pos _), ← Nat.pow_add]
  rwa [show 8 + (e.plen.toNat - 8) = e.plen.toNat by omega]

/-- A full or partial group padded on the right (41_pack.md R132). -/
theorem paddedByte_toNat {e : Engine} (h₈ : e.plen.toNat ≤ 8) (hb : e.pbuf.toNat < 2 ^ e.plen.toNat) :
    (paddedByte e).toNat = e.pbuf.toNat * 2 ^ (8 - e.plen.toNat) := by
  have hlt : e.pbuf.toNat * 2 ^ (8 - e.plen.toNat) < 2 ^ 8 := by
    calc e.pbuf.toNat * 2 ^ (8 - e.plen.toNat) < 2 ^ e.plen.toNat * 2 ^ (8 - e.plen.toNat) :=
          Nat.mul_lt_mul_of_pos_right hb (Nat.two_pow_pos _)
      _ = 2 ^ 8 := by rw [← Nat.pow_add]; congr 1; omega
  simp only [paddedByte, BitVec.toNat_setWidth, BitVec.toNat_shiftLeft, Nat.shiftLeft_eq]
  omega

/-- What the emission test does, both cases (41_pack.md R131). -/
theorem emitIfOverByte_cases (e : Engine) :
    (e.plen.toNat ≤ 8 ∧ emitIfOverByte e = (e, [])) ∨
    (8 < e.plen.toNat ∧ emitIfOverByte e = (dropLeadingByte e, [.pout (leadingByte e)])) := by
  by_cases h : 8 < e.plen.toNat
  · exact .inr ⟨h, if_pos h⟩
  · exact .inl ⟨by omega, if_neg h⟩

/-- What a `PSYM` that runs can do (41_pack.md R131). -/
theorem psymEffect_cases (w : Word) (sym : Byte) (e : Engine) :
    (encLookup e sym = none ∧ psymEffect w sym e = (raise .noCodeForSymbol w e, [])) ∨
    (∃ c, encLookup e sym = some c ∧ psymEffect w sym e = emitIfOverByte (appendCodeword c e)) := by
  cases h : encLookup e sym with
  | none => exact .inl ⟨rfl, by simp [psymEffect, h]⟩
  | some c => exact .inr ⟨c, rfl, by simp [psymEffect, h]⟩

/-- What a `PFLUSH` that runs can do (41_pack.md R132). -/
theorem pflushEffect_cases (e : Engine) :
    (e.plen = 0 ∧ pflushEffect e = (e, [])) ∨
    (e.plen ≠ 0 ∧ pflushEffect e = ({ e with pbuf := 0, plen := 0 }, [.pout (paddedByte e)])) := by
  by_cases h : e.plen = 0
  · exact .inl ⟨h, if_pos h⟩
  · exact .inr ⟨h, if_neg h⟩

end Sys2Proof.Machine
end

