-- ==== Sys2Proof/Laws/Parse.lean ====
section
/-! SUPPORT. The laws of the parse of spec/42_unpack.md R155: what it reads, and how looking one more bit up changes it. -/

namespace Sys2Proof.Machine

/-- The search reads the decode mapping only. -/
theorem shortestFrom_congr {e e' : Engine} (h : e'.dec = e.dec) (bits : List Bool) (n len : Nat) :
    shortestFrom e' bits n len = shortestFrom e bits n len := by
  induction n generalizing len with
  | zero => rfl
  | succ n ih => simp only [shortestFrom, decLookup, h, ih]

/-- The parse reads the decode mapping and VLENS only. -/
theorem parse_congr {e e' : Engine} (hd : e'.dec = e.dec) (hv : e'.vlens = e.vlens) (start n : Nat)
    (bits : List Bool) : parse e' start n bits = parse e start n bits := by
  induction n generalizing start bits with
  | zero => rfl
  | succ n ih => simp only [parse, shortestFrom_congr hd, hv, ih]

/-- No codeword is longer than `maxlen(VLENS)` (10_state.md R36 (a)). -/
theorem decLookup_eq_none {e : Engine} (ht : e.TablesOk) {len v : Nat} (h₁ : 1 ≤ len) (h₈ : len ≤ 8)
    (hv : v < 2 ^ len) (hm : maxlen e.vlens < len) : decLookup e len v = none := by
  by_contra hne
  have hc := (ht.candidateIffLoaded len h₁ h₈).2 ⟨v, hv, by simpa [Option.isSome_iff_ne_none] using hne⟩
  have hle := le_maxlen hc
  omega

theorem valueOf_take_lt (bits : List Bool) {len : Nat} (h : len ≤ bits.length) :
    valueOf (bits.take len) < 2 ^ len := by
  have hlt := valueOf_lt (bits.take len)
  rwa [List.length_take, Nat.min_eq_left h] at hlt

/-- Nothing is found beyond `maxlen(VLENS)`. -/
theorem shortestFrom_of_maxlen_lt {e : Engine} (ht : e.TablesOk) (bits : List Bool) (n len : Nat)
    (hm : maxlen e.vlens < len) (hn : n + len ≤ 9) : shortestFrom e bits n len = none := by
  induction n generalizing len with
  | zero => rfl
  | succ n ih =>
    simp only [shortestFrom]
    split
    · rename_i hl
      rw [decLookup_eq_none ht (by omega) (by omega) (valueOf_take_lt bits hl) hm]
      exact ih _ (by omega) (by omega)
    · rfl

/-- Nothing is found beyond the bits there are. -/
theorem shortestFrom_of_short {e : Engine} (bits : List Bool) (n len : Nat) (h : bits.length < len) :
    shortestFrom e bits n len = none := by
  cases n with
  | zero => rfl
  | succ n => simp only [shortestFrom]; rw [if_neg (by omega)]

/-- One more bit, a hit. -/
theorem parse_hit {e : Engine} {start n : Nat} {bits : List Bool} {sym : Byte} (hs : start < 8)
    (hb : start + 1 ≤ bits.length) (h : decLookup e (start + 1) (valueOf (bits.take (start + 1))) = some sym) :
    parse e start (n + 1) bits =
      (sym :: (parse e 0 n (bits.drop (start + 1))).1, (parse e 0 n (bits.drop (start + 1))).2) := by
  have hlen : Config.maxLen - start = (7 - start) + 1 := by simp only [Config.maxLen]; omega
  simp only [parse, hlen, shortestFrom, if_pos hb, h]

/-- One more bit, a miss: go on one bit later. -/
theorem parse_miss {e : Engine} {start n : Nat} {bits : List Bool} (hs : start < 8) (hb : start + 1 ≤ bits.length)
    (h : decLookup e (start + 1) (valueOf (bits.take (start + 1))) = none) :
    parse e start (n + 1) bits = parse e (start + 1) (n + 1) bits := by
  have hlen : Config.maxLen - start = (Config.maxLen - (start + 1)) + 1 := by simp only [Config.maxLen]; omega
  simp only [parse]
  rw [hlen]
  simp only [shortestFrom, if_pos hb, h]

/-- As many bits looked up as the longest codeword has: the bits are unknown (42_unpack.md R152). -/
theorem parse_unknown {e : Engine} (ht : e.TablesOk) {start n : Nat} {bits : List Bool}
    (hm : maxlen e.vlens ≤ start) (hs : start ≤ 8) (hb : start ≤ bits.length) :
    parse e start (n + 1) bits = ([], .unknown bits) := by
  simp only [parse]
  rw [shortestFrom_of_maxlen_lt ht _ _ _ (by omega) (by simp only [Config.maxLen]; omega)]
  simp only
  rw [if_neg (by omega)]

/-- Every bit looked up, fewer than the longest codeword has: the bits wait. -/
theorem parse_truncated {e : Engine} {n : Nat} {bits : List Bool} (hm : bits.length < maxlen e.vlens) :
    parse e bits.length (n + 1) bits = ([], .truncated bits) := by
  simp only [parse]
  rw [shortestFrom_of_short _ _ _ (by omega)]
  simp only
  rw [if_pos hm]

end Sys2Proof.Machine
end

