-- ==== Sys2Proof/Laws/Payload.lean ====
section
/-! SUPPORT. The laws of payload bytes as bit sequences (spec/20_memory.md R50, R51, R54). -/

namespace Sys2Proof.Machine

/-- The bits of a byte put together from eight bits are those bits. -/
theorem byteBits_byteOfBits (b0 b1 b2 b3 b4 b5 b6 b7 : Bool) :
    byteBits (byteOfBits b0 b1 b2 b3 b4 b5 b6 b7) = [b0, b1, b2, b3, b4, b5, b6, b7] := by
  revert b0 b1 b2 b3 b4 b5 b6 b7; decide

/-- A byte is its bits. -/
theorem byteBits_inj {a b : Byte} (h : byteBits a = byteBits b) : a = b := by
  simp only [byteBits, List.cons.injEq, and_true] at h
  obtain ⟨h7, h6, h5, h4, h3, h2, h1, h0⟩ := h
  apply BitVec.eq_of_getLsbD_eq
  intro i hi
  interval_cases i <;> assumption

/-- The bits of a byte are its value's bit-string of length 8. -/
theorem byteBits_ofNat (x : Nat) : byteBits (BitVec.ofNat 8 x) = strOf 8 x := by
  simp only [byteBits, strOf, BitVec.getLsbD_ofNat]
  simp

/-- The bits of a payload byte (20_memory.md R50). -/
theorem byteBits_payloadByte (bits : List Bool) (j : Nat) :
    byteBits (payloadByte bits j) =
      [bits.getD (8 * j) false, bits.getD (8 * j + 1) false, bits.getD (8 * j + 2) false, bits.getD (8 * j + 3) false,
       bits.getD (8 * j + 4) false, bits.getD (8 * j + 5) false, bits.getD (8 * j + 6) false,
       bits.getD (8 * j + 7) false] :=
  byteBits_byteOfBits ..

/-- A first payload byte without padding. -/
theorem byteBits_payloadByte_full (bits : List Bool) (h : 8 ≤ bits.length) :
    byteBits (payloadByte bits 0) = bits.take 8 := by
  rw [byteBits_payloadByte]
  match bits, h with
  | b0 :: b1 :: b2 :: b3 :: b4 :: b5 :: b6 :: b7 :: rest, _ => rfl

/-- A first payload byte that is also the last: the bits on the left, zeros on the right (20_memory.md R54). -/
theorem byteBits_payloadByte_short (bits : List Bool) (h : bits.length ≤ 8) :
    byteBits (payloadByte bits 0) = bits ++ List.replicate (8 - bits.length) false := by
  rw [byteBits_payloadByte]
  match bits, h with
  | [], _ => rfl
  | [_], _ => rfl
  | [_, _], _ => rfl
  | [_, _, _], _ => rfl
  | [_, _, _, _], _ => rfl
  | [_, _, _, _, _], _ => rfl
  | [_, _, _, _, _, _], _ => rfl
  | [_, _, _, _, _, _, _], _ => rfl
  | [_, _, _, _, _, _, _, _], _ => rfl
  | _ :: _ :: _ :: _ :: _ :: _ :: _ :: _ :: _ :: rest, h => simp only [List.length_cons] at h; omega

/-- A later payload byte is a payload byte of the later bits. -/
theorem payloadByte_succ (bits : List Bool) (j : Nat) : payloadByte bits (j + 1) = payloadByte (bits.drop 8) j := by
  simp only [payloadByte, List.getD_eq_getElem?_getD, List.getElem?_drop]
  simp only [show 8 * (j + 1) = 8 + 8 * j by omega, Nat.add_assoc]

@[simp] theorem payloadOf_nil : payloadOf [] = [] := rfl

/-- The payload of at least one bit: its first byte, then the payload of the bits from the ninth on. -/
theorem payloadOf_cons (bits : List Bool) (h : 1 ≤ bits.length) :
    payloadOf bits = payloadByte bits 0 :: payloadOf (bits.drop 8) := by
  simp only [payloadOf, payloadLength, List.length_drop]
  have hlen : (bits.length + 7) / 8 = (bits.length - 8 + 7) / 8 + 1 := by omega
  rw [hlen, List.range_succ_eq_map, List.map_cons, List.map_map]
  congr 1
  apply List.map_congr_left
  intro j _
  exact payloadByte_succ bits j

theorem streamBits_cons (b : Byte) (rest : List Byte) : streamBits (b :: rest) = byteBits b ++ streamBits rest := by
  simp [streamBits]

@[simp] theorem streamBits_length (bytes : List Byte) : (streamBits bytes).length = 8 * bytes.length := by
  induction bytes with
  | nil => rfl
  | cons b rest ih => rw [streamBits_cons, List.length_append, ih]; simp [byteBits]; omega

/-- The bits of a payload are the packed bits and fewer than eight padding bits (20_memory.md R50, R51, R54). -/
theorem streamBits_payloadOf (bits : List Bool) :
    ∃ pad : List Bool, pad.length < 8 ∧ streamBits (payloadOf bits) = bits ++ pad := by
  generalize hn : bits.length = n
  induction n using Nat.strongRecOn generalizing bits with
  | ind n ih =>
    by_cases h0 : bits.length = 0
    · have hnil : bits = [] := List.length_eq_zero_iff.1 h0
      subst hnil; exact ⟨[], by simp, rfl⟩
    · rw [payloadOf_cons bits (by omega), streamBits_cons]
      by_cases h8 : 8 ≤ bits.length
      · obtain ⟨pad, hp, he⟩ := ih (bits.drop 8).length (by simp; omega) _ rfl
        exact ⟨pad, hp, by
          rw [he, byteBits_payloadByte_full _ h8, ← List.append_assoc, List.take_append_drop]⟩
      · refine ⟨List.replicate (8 - bits.length) false, by simp; omega, ?_⟩
        rw [List.drop_of_length_le (by omega), payloadOf_nil, byteBits_payloadByte_short _ (by omega)]
        simp [streamBits]

end Sys2Proof.Machine
end

