-- ==== Sys2Proof/Laws/PerInstr.lean ====
section
/-! SUPPORT. Statements made per command, one lemma per constructor of `Instr` (LAWS.json). -/

namespace Sys2Proof.Laws.EncodedWordIsTableRow

/-- The command's word has the fixed bits of its own row of the opcode table and of no other row
(spec/30_encoding.md R82). -/
def Statement (i : Instr) : Prop :=
  rowOf i ∈ opcodeTable ∧ ∀ r ∈ opcodeTable, (r.matches (encode i) = true ↔ r = rowOf i)

theorem nop : Statement .nop := by unfold Statement; decide

theorem clr : Statement .clr := by unfold Statement; decide

theorem lde (sym len val : Byte) : Statement (.lde sym len val) := by
  refine ⟨by simp [rowOf, opcodeTable], fun r hr => ?_⟩
  simp only [opcodeTable, List.mem_cons, List.not_mem_nil, or_false] at hr
  rcases hr with rfl | rfl | rfl | rfl | rfl | rfl | rfl | rfl | rfl | rfl <;>
    simp [encode, OpRow.matches_wordOf, rowOf, opField, aField, bField, cField]

theorem sett (t : Byte) : Statement (.sett t) := by
  refine ⟨by simp [rowOf, opcodeTable], fun r hr => ?_⟩
  simp only [opcodeTable, List.mem_cons, List.not_mem_nil, or_false] at hr
  rcases hr with rfl | rfl | rfl | rfl | rfl | rfl | rfl | rfl | rfl | rfl <;>
    simp [encode, OpRow.matches_wordOf, rowOf, opField, aField, bField, cField]

theorem psym (sym : Byte) : Statement (.psym sym) := by
  refine ⟨by simp [rowOf, opcodeTable], fun r hr => ?_⟩
  simp only [opcodeTable, List.mem_cons, List.not_mem_nil, or_false] at hr
  rcases hr with rfl | rfl | rfl | rfl | rfl | rfl | rfl | rfl | rfl | rfl <;>
    simp [encode, OpRow.matches_wordOf, rowOf, opField, aField, bField, cField]

theorem pflush : Statement .pflush := by unfold Statement; decide

theorem ubyte (b : Byte) : Statement (.ubyte b) := by
  refine ⟨by simp [rowOf, opcodeTable], fun r hr => ?_⟩
  simp only [opcodeTable, List.mem_cons, List.not_mem_nil, or_false] at hr
  rcases hr with rfl | rfl | rfl | rfl | rfl | rfl | rfl | rfl | rfl | rfl <;>
    simp [encode, OpRow.matches_wordOf, rowOf, opField, aField, bField, cField]

theorem uend : Statement .uend := by unfold Statement; decide

theorem rdstat : Statement .rdstat := by unfold Statement; decide

theorem rderr : Statement .rderr := by unfold Statement; decide

end Sys2Proof.Laws.EncodedWordIsTableRow
end

