-- ==== Sys2Proof/Laws/Step.lean ====
section
/-! SUPPORT. What a step can do, said once: the four cases of spec/60_exceptions.md R174 with the model's own idle step and
hardware reset. -/

namespace Sys2Proof.Machine

/-- The step with no input waiting. -/
theorem step_idle {s : State} (h : s.pending = []) : step s = .next s := by
  simp [step, nextInput, h, idle]

/-- The step on `rst`. -/
theorem step_rst {s : State} {rest : List Input} (h : s.pending = .rst :: rest) :
    step s = .next { s with engine := Engine.reset, pending := rest } := by
  simp [step, nextInput, h, hardwareReset]

/-- The step on a word that decodes. -/
theorem step_command {s : State} {w : Word} {rest : List Input} {i : Instr} (h : s.pending = .word w :: rest)
    (hd : decode w = some i) : step s = exec i { s with pending := rest } := by
  simp [step, nextInput, h, hd]

/-- The step on an Illegal word. -/
theorem step_illegal {s : State} {w : Word} {rest : List Input} (h : s.pending = .word w :: rest)
    (hd : decode w = none) : step s = illegalWord w { s with pending := rest } := by
  simp [step, nextInput, h, hd]

/-- An Illegal word with no error recorded. -/
theorem illegalWord_of_none {s : State} (w : Word) (h : s.engine.err = 0) :
    illegalWord w s = .next { s with engine := raise .illegalCommand w s.engine } := by
  simp [illegalWord, whenNoError_of_none _ h]

/-- An Illegal word in the error state. -/
theorem illegalWord_of_error {s : State} (w : Word) (h : s.engine.err ≠ 0) : illegalWord w s = .next s := by
  simp [illegalWord, whenNoError_of_error _ h]

/-- Everything a step can do. -/
theorem step_cases {s t : State} (h : step s = .next t) :
    (s.pending = [] ∧ t = s) ∨
    (∃ rest, s.pending = .rst :: rest ∧ t = { s with engine := Engine.reset, pending := rest }) ∨
    (∃ w rest i, s.pending = .word w :: rest ∧ decode w = some i ∧ exec i { s with pending := rest } = .next t) ∨
    (∃ w rest, s.pending = .word w :: rest ∧ decode w = none ∧ s.engine.err = 0 ∧
      t = { s with engine := raise .illegalCommand w s.engine, pending := rest }) ∨
    (∃ w rest, s.pending = .word w :: rest ∧ decode w = none ∧ s.engine.err ≠ 0 ∧ t = { s with pending := rest }) := by
  cases hp : s.pending with
  | nil =>
    rw [step_idle hp] at h
    exact .inl ⟨rfl, by cases h; rfl⟩
  | cons input rest =>
    cases input with
    | rst =>
      rw [step_rst hp] at h
      exact .inr (.inl ⟨rest, rfl, by cases h; rfl⟩)
    | word w =>
      cases hd : decode w with
      | some i =>
        rw [step_command hp hd] at h
        exact .inr (.inr (.inl ⟨w, rest, i, rfl, hd, h⟩))
      | none =>
        rw [step_illegal hp hd] at h
        by_cases he : s.engine.err = 0
        · rw [illegalWord_of_none (s := { s with pending := rest }) w he] at h
          exact .inr (.inr (.inr (.inl ⟨w, rest, rfl, hd, he, by cases h; rfl⟩)))
        · rw [illegalWord_of_error (s := { s with pending := rest }) w he] at h
          exact .inr (.inr (.inr (.inr ⟨w, rest, rfl, hd, he, by cases h; rfl⟩)))

/-- A command's effect on the engine and its outputs, the gate of a data command included: the form R6 gives a step,
`State -> CommandWord -> State x List Output`. -/
def effectOf (i : Instr) (e : Engine) : Engine × List Output :=
  match i with
  | .nop => (e, [])
  | .clr => (Engine.reset, [])
  | .lde sym len val => whenNoError (ldeEffect (encode (.lde sym len val)) sym len val) e
  | .sett t => whenNoError (settEffect t) e
  | .psym sym => whenNoError (psymEffect (encode (.psym sym)) sym) e
  | .pflush => whenNoError pflushEffect e
  | .ubyte b => whenNoError (ubyteEffect (encode (.ubyte b)) b) e
  | .uend => whenNoError (uendEffect (encode .uend)) e
  | .rdstat => (e, [.rsp (status e)])
  | .rderr => (e, [.rsp e.einfo])

/-- Every command ends in a next state, with its effect committed. -/
theorem exec_eq (i : Instr) (s : State) :
    exec i s = .next { s with engine := (effectOf i s.engine).1, out := s.out ++ (effectOf i s.engine).2 } := by
  cases i <;> simp [exec, execNop, execClr, execLde, execSett, execPsym, execPflush, execUbyte, execUend, execRdstat,
    execRderr, effectOf]

end Sys2Proof.Machine
end

