-- ==== Sys2Proof/Laws/Run.lean ====
section
/-! SUPPORT. A run of commands: the engine-level fold of `effectOf`, and what `Host.Core.run` does on inputs that all decode
(spec/20_memory.md R65: each command complete before the next). -/

namespace Sys2Proof.Machine

/-- The effects of commands one after another, outputs in command order (00_scope.md R6). -/
def effectsOf : List Instr → Engine → Engine × List Output
  | [], e => (e, [])
  | i :: rest, e =>
    let r := effectsOf rest (effectOf i e).1
    (r.1, (effectOf i e).2 ++ r.2)

@[simp] theorem effectsOf_nil (e : Engine) : effectsOf [] e = (e, []) := rfl

theorem effectsOf_cons (i : Instr) (rest : List Instr) (e : Engine) :
    effectsOf (i :: rest) e =
      ((effectsOf rest (effectOf i e).1).1, (effectOf i e).2 ++ (effectsOf rest (effectOf i e).1).2) := rfl

/-- Effects of two sequences in order. -/
theorem effectsOf_append (is js : List Instr) (e : Engine) :
    effectsOf (is ++ js) e =
      ((effectsOf js (effectsOf is e).1).1, (effectsOf is e).2 ++ (effectsOf js (effectsOf is e).1).2) := by
  induction is generalizing e with
  | nil => rfl
  | cons i rest ih => simp only [List.cons_append, effectsOf_cons, ih, List.append_assoc]

/-- One more step of a run. -/
theorem run_succ {s t : State} (n : Nat) (h : step s = .next t) :
    Host.Core.run Sys2Proof.core (n + 1) s = Host.Core.run Sys2Proof.core n t := by
  have h' : Sys2Proof.core.step s = .next t := h
  have hrun := Host.Core.run.eq_2 Sys2Proof.core s n
  rw [h'] at hrun
  exact hrun

/-- A run takes the waiting commands one by one and commits their effects in order, provided each command's word decodes
to it. -/
theorem run_commands (hdec : ∀ i : Instr, decode (encode i) = some i) (cmds : List Instr) (s : State)
    (rest : List Input) (hp : s.pending = inputsOf cmds ++ rest) :
    Host.Core.run Sys2Proof.core cmds.length s =
      .next { engine := (effectsOf cmds s.engine).1, pending := rest, out := s.out ++ (effectsOf cmds s.engine).2 } := by
  induction cmds generalizing s with
  | nil =>
    simp only [inputsOf, List.map_nil, List.nil_append] at hp
    subst hp
    simp only [effectsOf_nil, List.append_nil]
    rfl
  | cons i is ih =>
    have hstep : step s = exec i { s with pending := inputsOf is ++ rest } :=
      step_command (rest := inputsOf is ++ rest) (by simpa [inputsOf] using hp) (hdec i)
    rw [exec_eq] at hstep
    rw [List.length_cons, run_succ _ hstep, ih _ rfl]
    simp only [effectsOf_cons, List.append_assoc]

end Sys2Proof.Machine
end

