-- ==== Sys2Proof/Laws/Unpack.lean ====
section
/-! SUPPORT. The unpacker's operations as arithmetic (spec/42_unpack.md R154) and everything the bits of a byte can do. -/

namespace Sys2Proof.Machine

/-- The live bits of UBUF (10_state.md R23). -/
def unpackBits (e : Engine) : List Bool := strOf e.ulen.toNat e.ubuf.toNat

/-- `ULEN + 1` does not wrap (42_unpack.md R154). -/
theorem shiftIn_ulen_toNat {e : Engine} (b : Bool) (h : e.ulen.toNat < 8) :
    (shiftIn b e).ulen.toNat = e.ulen.toNat + 1 := by
  have h1 : (1 : BitVec 4).toNat = 1 := rfl
  simp only [shiftIn, BitVec.toNat_add, h1]
  omega

/-- `UBUF << 1 | b` loses no live bit: it is 2 * UBUF + b (42_unpack.md R154). -/
theorem shiftIn_ubuf_toNat {e : Engine} (b : Bool) (h : e.ulen.toNat < 8)
    (hb : e.ubuf.toNat < 2 ^ e.ulen.toNat) :
    (shiftIn b e).ubuf.toNat = e.ubuf.toNat * 2 + b.toNat := by
  have h7 : 2 ^ e.ulen.toNat ≤ 2 ^ 7 := Nat.pow_le_pow_right (by omega) (by omega)
  have hb1 : b.toNat < 2 ^ 1 := by cases b <;> decide
  have hor : e.ubuf.toNat * 2 + b.toNat = e.ubuf.toNat * 2 ||| b.toNat := by
    have := Nat.two_pow_add_eq_or_of_lt hb1 e.ubuf.toNat
    rw [Nat.mul_comm]; simpa using this
  simp only [shiftIn, BitVec.toNat_or, BitVec.toNat_shiftLeft, Nat.shiftLeft_eq, BitVec.toNat_setWidth,
    BitVec.toNat_ofBool]
  rw [hor, Nat.mod_eq_of_lt (by omega : e.ubuf.toNat * 2 ^ 1 < 2 ^ 8),
    Nat.mod_eq_of_lt (by omega : b.toNat < 2 ^ 8), Nat.pow_one]

/-- The shifted buffer is live in its new length. -/
theorem shiftIn_live {e : Engine} (b : Bool) (h : e.ulen.toNat < 8) (hb : e.ubuf.toNat < 2 ^ e.ulen.toNat) :
    (shiftIn b e).ubuf.toNat < 2 ^ (shiftIn b e).ulen.toNat := by
  rw [shiftIn_ubuf_toNat b h hb, shiftIn_ulen_toNat b h, Nat.pow_succ]
  cases b <;> simp <;> omega

/-- Shifting a bit in appends it to the live bits. -/
theorem unpackBits_shiftIn {e : Engine} (b : Bool) (h : e.ulen.toNat < 8)
    (hb : e.ubuf.toNat < 2 ^ e.ulen.toNat) : unpackBits (shiftIn b e) = unpackBits e ++ [b] := by
  simp only [unpackBits, shiftIn_ubuf_toNat b h hb, shiftIn_ulen_toNat b h]
  have := strOf_append e.ulen.toNat 1 e.ubuf.toNat b.toNat (by cases b <;> decide)
  rw [Nat.pow_one] at this
  rw [this]
  cases b <;> rfl

/-- A hit needs a candidate length and gives what DEC holds for the live bits (42_unpack.md R150). -/
theorem bufferLookup_eq_some {e : Engine} {sym : Byte} (h : bufferLookup e = some sym) :
    isCandidate e.vlens e.ulen.toNat = true ∧
      decLookup e e.ulen.toNat (e.ubuf.toNat % 2 ^ e.ulen.toNat) = some sym := by
  unfold bufferLookup at h
  split at h
  · rename_i hc; exact ⟨hc, h⟩
  · cases h

/-- No symbol left: the rest of the byte is skipped (42_unpack.md R151). -/
theorem feedBits_stop (w : Word) (bits : List Bool) {e : Engine} (h : e.rem = 0) : feedBits w bits e = (e, []) := by
  cases bits with
  | nil => rfl
  | cons b rest => simp only [feedBits, if_pos h]

/-- A hit (42_unpack.md R150). -/
theorem feedBits_hit (w : Word) {b : Bool} {rest : List Bool} {e : Engine} {sym : Byte} (h : e.rem ≠ 0)
    (hl : bufferLookup (shiftIn b e) = some sym) :
    feedBits w (b :: rest) e =
      ((feedBits w rest (consumeHit (shiftIn b e))).1,
        .sout sym :: (feedBits w rest (consumeHit (shiftIn b e))).2) := by
  simp only [feedBits, if_neg h, hl]

/-- An overflow (42_unpack.md R152). -/
theorem feedBits_overflow (w : Word) {b : Bool} {rest : List Bool} {e : Engine} (h : e.rem ≠ 0)
    (hl : bufferLookup (shiftIn b e) = none) (hm : maxlen e.vlens ≤ (shiftIn b e).ulen.toNat) :
    feedBits w (b :: rest) e = (raise .unknownSymbolInPayload w (shiftIn b e), []) := by
  simp only [feedBits, if_neg h, hl, if_pos hm]

/-- No candidate length or a miss below the longest: the bits accumulate (42_unpack.md R150). -/
theorem feedBits_wait (w : Word) {b : Bool} {rest : List Bool} {e : Engine} (h : e.rem ≠ 0)
    (hl : bufferLookup (shiftIn b e) = none) (hm : ¬ maxlen e.vlens ≤ (shiftIn b e).ulen.toNat) :
    feedBits w (b :: rest) e = feedBits w rest (shiftIn b e) := by
  simp only [feedBits, if_neg h, hl, if_neg hm]

/-- A nonzero counter counts one off without a wrap (42_unpack.md R154). -/
theorem rem_sub_one {r : Byte} (h : r ≠ 0) : (r - 1).toNat + 1 = r.toNat := by
  have h1 : (1 : Byte).toNat = 1 := rfl
  have : r.toNat ≠ 0 := fun h0 => h (BitVec.eq_of_toNat_eq h0)
  have := r.isLt
  simp only [BitVec.toNat_sub, h1]
  omega

/-- Everything the bits of a byte can do to the engine and the ports: UBUF, ULEN, REM, ERR and EINFO only; symbols
only; every symbol counted off REM without a wrap; an error only `UnknownSymbolInPayload` with the command's word. -/
theorem feedBits_cases (w : Word) (bits : List Bool) (e : Engine) :
    ∃ e' syms, feedBits w bits e = (e', List.map Output.sout syms) ∧
      e' = { e with ubuf := e'.ubuf, ulen := e'.ulen, rem := e'.rem, err := e'.err, einfo := e'.einfo } ∧
      e'.rem.toNat + syms.length = e.rem.toNat ∧ syms.length ≤ bits.length ∧
      ((e'.err = e.err ∧ e'.einfo = e.einfo) ∨
        (e'.err = errorCode .unknownSymbolInPayload ∧ e'.einfo = w ∧ e'.rem ≠ 0)) := by
  induction bits generalizing e with
  | nil => exact ⟨e, [], rfl, rfl, rfl, Nat.le_refl 0, .inl ⟨rfl, rfl⟩⟩
  | cons b rest ih =>
    by_cases hr : e.rem = 0
    · exact ⟨e, [], feedBits_stop w _ hr, rfl, rfl, Nat.zero_le _, .inl ⟨rfl, rfl⟩⟩
    · cases hl : bufferLookup (shiftIn b e) with
      | some sym =>
        obtain ⟨e', syms, h₁, h₂, h₃, h₄, h₅⟩ := ih (consumeHit (shiftIn b e))
        have hrem := rem_sub_one hr
        refine ⟨e', sym :: syms, ?_, ?_, ?_, ?_, h₅⟩
        · rw [feedBits_hit w hr hl, h₁]; rfl
        · rw [h₂]; rfl
        · simp only [consumeHit_rem, shiftIn_rem] at h₃
          simp only [List.length_cons]; omega
        · simp only [List.length_cons]; omega
      | none =>
        by_cases hm : maxlen e.vlens ≤ (shiftIn b e).ulen.toNat
        · exact ⟨raise .unknownSymbolInPayload w (shiftIn b e), [], feedBits_overflow w hr hl hm, rfl, rfl,
            Nat.zero_le _, .inr ⟨rfl, rfl, hr⟩⟩
        · obtain ⟨e', syms, h₁, h₂, h₃, h₄, h₅⟩ := ih (shiftIn b e)
          refine ⟨e', syms, ?_, ?_, h₃, ?_, h₅⟩
          · rw [feedBits_wait w hr hl hm, h₁]
          · rw [h₂]; rfl
          · simp only [List.length_cons]; omega

/-- What a `UBYTE` that runs can do (42_unpack.md R150). -/
theorem ubyteEffect_cases (w : Word) (b : Byte) (e : Engine) :
    (e.rem = 0 ∧ ubyteEffect w b e = ({ e with trail := true }, [])) ∨
    (e.rem ≠ 0 ∧ ubyteEffect w b e = feedBits w (byteBits b) e) := by
  by_cases h : e.rem = 0
  · exact .inl ⟨h, if_pos h⟩
  · exact .inr ⟨h, if_neg h⟩

/-- What a `UEND` that runs can do (42_unpack.md R153). -/
theorem uendEffect_cases (w : Word) (e : Engine) :
    (e.rem = 0 ∧ uendEffect w e = (e, [])) ∨
    (e.rem ≠ 0 ∧ uendEffect w e = (raise .truncatedStream w e, [])) := by
  by_cases h : e.rem = 0
  · exact .inl ⟨h, if_pos h⟩
  · exact .inr ⟨h, if_neg h⟩

@[simp] theorem byteBits_length (b : Byte) : (byteBits b).length = 8 := rfl

end Sys2Proof.Machine
end

