-- ==== Sys2Proof/Tests/Slice0.lean ====
section
/-! SUPPORT. Tests and witnesses. Every expected result is from spec/: the words of 30_encoding.md R82 and R91, the vectors
V<n>, examples X<n> and programs P<n> of 95_test_vectors.md. A witness shows a state and operands that meet all
hypotheses of one statement of Certificates/Slice0/Obligations.lean, or of one of its clauses. -/

namespace Sys2Proof.Tests

open Sys2Proof.Machine

/-! ### Helpers -/

/-- The engine after some table loads from reset. -/
def loaded (triples : List Triple) : Engine :=
  triples.foldl (fun e t => loadEntry t.sym t.len t.val e) Engine.reset

/-- Table T2: a = "0", b = "1". -/
def t2 : Engine := loaded [⟨0x61, 1, 0⟩, ⟨0x62, 1, 1⟩]

/-- Table T4: a = "00", b = "01", c = "10", d = "11". -/
def t4 : Engine := loaded [⟨0x61, 2, 0⟩, ⟨0x62, 2, 1⟩, ⟨0x63, 2, 2⟩, ⟨0x64, 2, 3⟩]

/-- Table T5: a = "0", b = "10", c = "110", d = "1110", e = "1111". -/
def t5 : Engine := loaded [⟨0x61, 1, 0⟩, ⟨0x62, 2, 2⟩, ⟨0x63, 3, 6⟩, ⟨0x64, 4, 14⟩, ⟨0x65, 4, 15⟩]

/-- Table TG: a = "00", b = "01", c = "11", d = "100", e = "101". -/
def tg : Engine := loaded [⟨0x61, 2, 0⟩, ⟨0x62, 2, 1⟩, ⟨0x63, 2, 3⟩, ⟨0x64, 3, 4⟩, ⟨0x65, 3, 5⟩]

/-- Table TH: a = "00", b = "01", c = "100". -/
def th : Engine := loaded [⟨0x61, 2, 0⟩, ⟨0x62, 2, 1⟩, ⟨0x63, 3, 4⟩]

/-- A machine with the given engine and inputs. -/
def machine (e : Engine) (pending : List Input) : State := { engine := e, pending := pending, out := [] }

/-- Engine, inputs left and outputs after one step, when the step answers a next state. -/
def stepped (e : Engine) (pending : List Input) : Option (Engine × List Input × List Output) :=
  match step (machine e pending) with
  | .next t => some (t.engine, t.pending, t.out)
  | .fault _ => none
  | .refused _ => none

/-- Engine and outputs after the step that runs one word. -/
def ran (e : Engine) (w : Word) : Option (Engine × List Output) :=
  (stepped e [.word w]).map fun r => (r.1, r.2.2)

/-! ### Encoding: words written out bit by bit from 30_encoding.md R80, R82, R91 -/

theorem test_decode_nop : decode 0b00000000000000000000000000000000 = some .nop := by decide
theorem test_decode_clr : decode 0b00000001000000000000000000000000 = some .clr := by decide
/-- `LDC 'b', "101"` is `LDE 0x62, 3, 5` (R92), word `0x02620305` (V5). -/
theorem test_decode_lde : decode 0b00000010011000100000001100000101 = some (.lde 0x62 3 5) := by decide
theorem test_decode_sett : decode 0b00000011000000000000000000000100 = some (.sett 4) := by decide
theorem test_decode_psym : decode 0b00000100011000010000000000000000 = some (.psym 0x61) := by decide
theorem test_decode_pflush : decode 0b00000101000000000000000000000000 = some .pflush := by decide
theorem test_decode_ubyte : decode 0b00000110000000000000000001011011 = some (.ubyte 0x5B) := by decide
theorem test_decode_uend : decode 0b00000111000000000000000000000000 = some .uend := by decide
theorem test_decode_rdstat : decode 0b00001000000000000000000000000000 = some .rdstat := by decide
theorem test_decode_rderr : decode 0b00001001000000000000000000000000 = some .rderr := by decide

/-- V30 to V41: every word there is Illegal. -/
theorem test_decode_illegal :
    [0x0A000000, 0xFFFFFFFF, 0x01000001, 0x00000001, 0x04610100, 0x04610001, 0x06010010, 0x03000104, 0x05800000,
      0x07000100, 0x08000001, 0x09010000].all (fun w => decode w == none) = true := by decide

/-- An operand value is no matter of the decoder: V12, `LDE 'a', 255, 255`. -/
theorem test_decode_checks_no_operand : decode 0x0261FFFF = some (.lde 0x61 255 255) := by decide

theorem test_encode_words :
    encode (.lde 0x65 4 0x0F) = 0x0265040F ∧ encode (.psym 0xFF) = 0x04FF0000 ∧ encode (.sett 10) = 0x0300000A ∧
      encode (.ubyte 0x80) = 0x06000080 := by decide

/-- No two rows of R82 share a word: some bit both masks look at differs. -/
theorem test_table_rows_disjoint :
    opcodeTable.Pairwise (fun r q => (r.pattern ^^^ q.pattern) &&& r.mask &&& q.mask ≠ 0) := by decide

theorem test_table_word : decodeTableWord 32 0x02620305 = some (.lde 0x62 3 5) := by decide
/-- Bits above `nbits` are 0. -/
theorem test_table_word_short : decodeTableWord 8 0x02620305 = none := by decide

/-- The word placed for the next step is the one that step runs: V5. -/
theorem test_fetch_word :
    (match step (State.reset.withFetchWord 32 0x02620305) with
      | .next t => t.engine.vlens == 0x04 && decide (t.pending = [])
      | .fault _ => false
      | .refused _ => false) = true := by decide

/-! ### The assembler's checks (30_encoding.md R91, R92): one ill-formed line for each, refused -/

theorem test_wf_operand_too_large :
    (SourceLine.lde 256 1 0).wellFormed = false ∧ (SourceLine.lde 0 256 0).wellFormed = false ∧
      (SourceLine.lde 0 1 256).wellFormed = false ∧ (SourceLine.sett 256).wellFormed = false ∧
      (SourceLine.psym 256).wellFormed = false ∧ (SourceLine.ubyte 256).wellFormed = false ∧
      (SourceLine.ldc 256 [true]).wellFormed = false ∧ (SourceLine.psyms [1, 256]).wellFormed = false ∧
      (SourceLine.ubytes [256]).wellFormed = false ∧ (SourceLine.unpk [0, 256]).wellFormed = false := by decide

theorem test_wf_bit_string_length :
    (SourceLine.ldc 0x61 []).wellFormed = false ∧
      (SourceLine.ldc 0x61 [true, true, true, true, true, true, true, true, true]).wellFormed = false := by decide

theorem test_wf_header_missing :
    (SourceLine.unpk [1]).wellFormed = false ∧ (SourceLine.unpk [1, 0, 0x61, 1]).wellFormed = false := by decide

theorem test_wf_accepts :
    (SourceLine.lde 255 200 255).wellFormed = true ∧ (SourceLine.ldc 0x62 [true, false, true]).wellFormed = true ∧
      (SourceLine.unpk [0, 0]).wellFormed = true := by decide

/-- A refused line assembles to nothing. -/
theorem test_assemble_refuses : assemble (.psym 256) = none := by decide

/-- R92: `LDC 'b', "101"` is `LDE 0x62, 3, 5`. -/
theorem test_assemble_ldc :
    assembleText ['L', 'D', 'C', ' ', '\'', 'b', '\'', ',', ' ', '"', '1', '0', '1', '"', ' ', ';', 'x'] =
      some [.lde 0x62 3 5] := by decide

/-- R91: decimal, hexadecimal and binary numbers. -/
theorem test_assemble_numbers :
    assembleText ['L', 'D', 'E', ' ', '0', 'x', '6', '1', ',', '9', ',', '0', 'b', '1', '0', '1'] =
      some [.lde 0x61 9 5] := by decide

/-- R92: `PSYMS "ab"`. -/
theorem test_assemble_psyms :
    assembleText ['P', 'S', 'Y', 'M', 'S', ' ', '"', 'a', 'b', '"'] = some [.psym 0x61, .psym 0x62] := by decide

/-- X3, X5: the stream `01 02 61 01 00 00` and the empty one, unpacked (R92, R60). -/
theorem test_assemble_unpk :
    assemble (.unpk [1, 2, 0x61, 1, 0, 0x00]) = some [.clr, .lde 0x61 1 0, .sett 2, .ubyte 0, .uend] ∧
      assemble (.unpk [0, 0]) = some [.clr, .sett 0, .uend] := by decide

/-- R60 (5): with T = 0 the host presents no payload byte; R92: `UNPK` presents every payload byte. -/
theorem test_unpack_empty_input :
    unpackCommands [1, 0, 0x61, 1, 0, 0xFF] = .ok [.clr, .lde 0x61 1 0, .sett 0, .uend] ∧
      assemble (.unpk [1, 0, 0x61, 1, 0, 0xFF]) = some [.clr, .lde 0x61 1 0, .sett 0, .ubyte 0xFF, .uend] :=
  ⟨rfl, by decide⟩

/-! ### Reset -/

/-- R40, R201: V3. -/
theorem test_reset_status : status State.reset.engine = 0x00000020 := by decide

theorem test_reset_tables_canonical :
    Table.wf 0 Config.encSlots State.reset.engine.enc = true ∧
      Table.wf Config.decFirst (Config.decFirst + Config.decSlots) State.reset.engine.dec = true := by decide

/-- R200: `rst` clears the engine and leaves the later inputs waiting. -/
theorem test_rst :
    stepped { t2 with err := 5, rem := 3, ulen := 8 } [.rst, .word 0] =
      some (Engine.reset, [.word 0], []) := by decide

/-! ### Control commands: V2, V19, V20, V21 -/

theorem test_nop : ran { Engine.reset with err := 3, einfo := 0x02610900 } 0x00000000 =
    some ({ Engine.reset with err := 3, einfo := 0x02610900 }, []) := by decide
theorem test_clr : ran { t2 with pbuf := 5, plen := 3 } 0x01000000 = some (Engine.reset, []) := by decide
theorem test_rdstat : ran { Engine.reset with err := 3, einfo := 0x02610900 } 0x08000000 =
    some ({ Engine.reset with err := 3, einfo := 0x02610900 }, [.rsp 0x00000023]) := by decide
theorem test_rderr : ran { Engine.reset with err := 3, einfo := 0x02610900 } 0x09000000 =
    some ({ Engine.reset with err := 3, einfo := 0x02610900 }, [.rsp 0x02610900]) := by decide

/-! ### `LDE` -/

/-- V5, with X1's flat index 13. -/
theorem test_lde : ran Engine.reset 0x02620305 =
    some ({ Engine.reset with enc := [(0x62, ⟨3, 5⟩)], dec := [(13, 0x62)], vlens := 0x04 }, []) := by decide
/-- V10, V13: the length check comes first. -/
theorem test_lde_errors :
    ran Engine.reset 0x02610001 = some ({ Engine.reset with err := 3, einfo := 0x02610001 }, []) ∧
      ran Engine.reset 0x02610204 = some ({ Engine.reset with err := 7, einfo := 0x02610204 }, []) := by decide
/-- V16: the older codeword goes on decoding. -/
theorem test_lde_again :
    (ran t2 0x02610202).map (fun r => (encLookup r.1 0x61, decLookup r.1 1 0, decLookup r.1 2 2, r.1.vlens)) =
      some (some ⟨2, 2⟩, some 0x61, some 0x61, 0x03) := by decide

/-! ### Packer -/

/-- V52: `PSYM 'c'` with seven bits waiting. -/
theorem test_psym : ran { t5 with pbuf := 0x2D, plen := 7 } 0x04630000 =
    some ({ t5 with pbuf := 2, plen := 2 }, [.pout 0x5B]) := by decide
/-- V53: exactly eight bits wait; V59: no codeword. -/
theorem test_psym_corners :
    ran { t4 with pbuf := 6, plen := 6 } 0x04640000 = some ({ t4 with pbuf := 0x1B, plen := 8 }, []) ∧
      ran Engine.reset 0x04000000 = some ({ Engine.reset with err := 6, einfo := 0x04000000 }, []) := by decide
/-- V60, V62. -/
theorem test_pflush :
    ran { t2 with pbuf := 1, plen := 4 } 0x05000000 = some (t2, [.pout 0x10]) ∧
      ran { t4 with pbuf := 0x1B, plen := 8 } 0x05000000 = some (t4, [.pout 0x1B]) := by decide

/-! ### Unpacker -/

/-- V71. -/
theorem test_sett : ran { t5 with rem := 7, ubuf := 3, ulen := 2 } 0x03000002 =
    some ({ t5 with rem := 2 }, []) := by decide
/-- V79: misses at a candidate length keep accumulating. -/
theorem test_ubyte : ran { tg with rem := 4 } 0x06000097 =
    some ({ tg with rem := 1 }, [.sout 0x64, .sout 0x65, .sout 0x63]) := by decide
/-- V81: an overflow in the middle of the byte. -/
theorem test_ubyte_overflow : ran { th with rem := 3 } 0x06000030 =
    some ({ th with rem := 2, ubuf := 6, ulen := 3, err := 5, einfo := 0x06000030 }, [.sout 0x61]) := by decide
/-- V92, V87. -/
theorem test_uend :
    ran { t5 with rem := 7, ubuf := 3, ulen := 2 } 0x07000000 =
        some ({ t5 with rem := 7, ubuf := 3, ulen := 2, err := 4, einfo := 0x07000000 }, []) ∧
      ran { t2 with trail := true } 0x07000000 = some ({ t2 with trail := true }, []) := by decide

/-! ### Illegal words and the gate: V32, V42.5, V42.6 -/

theorem test_illegal : ran t2 0x01000001 = some ({ t2 with err := 8, einfo := 0x01000001 }, []) := by decide
theorem test_gate :
    ran { Engine.reset with err := 3, einfo := 0x02610900 } 0x01000001 =
        some ({ Engine.reset with err := 3, einfo := 0x02610900 }, []) ∧
      ran { Engine.reset with err := 3, einfo := 0x02610900 } 0x04610000 =
        some ({ Engine.reset with err := 3, einfo := 0x02610900 }, []) := by decide

/-! ### The CompressedStream: X3, X4 -/

theorem test_stream_x3 :
    writeHeader 4 [⟨0x61, 1, 0⟩, ⟨0x62, 1, 1⟩] = .ok [0x02, 0x04, 0x61, 0x01, 0x00, 0x62, 0x01, 0x01] ∧
      payloadOf (concatCodewords t2 [0x61, 0x61, 0x61, 0x62]) = [0x10] := by
  exact ⟨rfl, by decide⟩
theorem test_payload_x4 : payloadOf (concatCodewords t4 [0x61, 0x62, 0x63, 0x64]) = [0x1B] := by decide

/-! ### Good states for the witnesses -/

/-- An engine with no error recorded meets the invariant when its tables and buffers do. -/
theorem inv_of_no_error {e : Engine} (ht : e.TablesOk) (he : e.err = 0) (hi : e.einfo = 0) (hp : e.plen.toNat ≤ 8)
    (hb : e.pbuf.toNat < 2 ^ e.plen.toNat) (hu : e.ubuf.toNat < 2 ^ e.ulen.toNat)
    (hl : e.ulen = 0 ∨ e.ulen.toNat < maxlen e.vlens) (hr : e.rem = 0 → e.ulen = 0) : e.Inv := by
  have h8 : e.ulen.toNat ≤ 8 := by
    rcases hl with h | h
    · rw [h]; decide
    · exact Nat.le_trans (Nat.le_of_lt h) (maxlen_le _)
  refine ⟨ht, ⟨hp, hb, h8, hu, fun _ => hl, ?_, hr⟩, ⟨.inl he, fun _ => hi, ?_, ?_, ?_, ?_, ?_, ?_⟩⟩ <;>
    (intro h; rw [he] at h; exact absurd h (by decide))

theorem t2_tablesOk : t2.TablesOk :=
  loadEntry_tablesOk 0x62 (by decide) (by decide) (by decide)
    (loadEntry_tablesOk 0x61 (by decide) (by decide) (by decide) reset_tablesOk)

theorem t5_tablesOk : t5.TablesOk :=
  loadEntry_tablesOk 0x65 (by decide) (by decide) (by decide)
    (loadEntry_tablesOk 0x64 (by decide) (by decide) (by decide)
      (loadEntry_tablesOk 0x63 (by decide) (by decide) (by decide)
        (loadEntry_tablesOk 0x62 (by decide) (by decide) (by decide)
          (loadEntry_tablesOk 0x61 (by decide) (by decide) (by decide) reset_tablesOk))))

theorem th_tablesOk : th.TablesOk :=
  loadEntry_tablesOk 0x63 (by decide) (by decide) (by decide)
    (loadEntry_tablesOk 0x62 (by decide) (by decide) (by decide)
      (loadEntry_tablesOk 0x61 (by decide) (by decide) (by decide) reset_tablesOk))

theorem t2_inv : t2.Inv :=
  inv_of_no_error t2_tablesOk rfl rfl (by decide) (by decide) (by decide) (.inl rfl) (fun _ => rfl)

theorem t5_inv : t5.Inv :=
  inv_of_no_error t5_tablesOk rfl rfl (by decide) (by decide) (by decide) (.inl rfl) (fun _ => rfl)

theorem th_inv : th.Inv :=
  inv_of_no_error th_tablesOk rfl rfl (by decide) (by decide) (by decide) (.inl rfl) (fun _ => rfl)

/-- T2 covers the input of X3. -/
theorem t2_covers : t2.Covers [0x61, 0x61, 0x61, 0x62] := by unfold Engine.Covers; decide

/-- ENC of T2, all of it. -/
theorem t2_enc (sym : Byte) :
    encLookup t2 sym = if sym = 0x62 then some ⟨1, 1⟩ else if sym = 0x61 then some ⟨1, 0⟩ else none := by
  rw [show t2 = loadEntry 0x62 1 1 (loadEntry 0x61 1 0 Engine.reset) from rfl, encLookup_loadEntry,
    encLookup_loadEntry]
  rfl

/-- DEC of T2, all of it. -/
theorem t2_dec (len v : Nat) (hv : v < 2 ^ len) :
    decLookup t2 len v =
      if len = 1 ∧ v = 1 then some 0x62 else if len = 1 ∧ v = 0 then some 0x61 else none := by
  rw [show t2 = loadEntry 0x62 1 1 (loadEntry 0x61 1 0 Engine.reset) from rfl,
    decLookup_loadEntry _ _ (by decide) hv, decLookup_loadEntry _ _ (by decide) hv]
  rfl

theorem t2_prefixFree : t2.PrefixFree := by
  intro s₁ s₂ c₁ c₂ h₁ h₂ hp
  rw [t2_enc] at h₁ h₂
  split_ifs at h₁ h₂ with a b c <;> cases h₁ <;> cases h₂
  · rw [a, b]
  · exact absurd hp (by decide)
  · exact absurd hp (by decide)
  · simp_all

theorem t2_decMirrorsEnc : t2.DecMirrorsEnc := by
  intro sym len v hv
  rw [t2_dec len v hv]
  constructor
  · intro h
    split_ifs at h with a b
    · cases h; exact ⟨⟨1, 1⟩, by decide, a.1.symm, a.2.symm⟩
    · cases h; exact ⟨⟨1, 0⟩, by decide, b.1.symm, b.2.symm⟩
  · rintro ⟨c, hc, hl, hval⟩
    rw [t2_enc] at hc
    split_ifs at hc with a b <;> cases hc <;> subst hl <;> subst hval <;> subst_vars <;> decide

/-- The table of X3 as triples. -/
theorem good_table : GoodTable [⟨0x61, 1, 0⟩, ⟨0x62, 1, 1⟩] := by
  refine ⟨?_, by decide, ?_⟩
  · intro t ht
    simp only [List.mem_cons, List.not_mem_nil, or_false] at ht
    rcases ht with rfl | rfl <;> decide
  · intro t ht u hu
    simp only [List.mem_cons, List.not_mem_nil, or_false] at ht hu
    rcases ht with rfl | rfl <;> rcases hu with rfl | rfl <;> decide

/-! ### Witnesses -/

/-- 00_scope.md R9: a boundary value, "11111111", and bit 0 of it. -/
theorem witness_StrAndPairAreInverse : (255 : Nat) < 2 ^ 8 ∧ (7 : Nat) < 8 := by decide

theorem witness_DecodeAndEncodeAreInverse : decode 0x02FF08FF = some (.lde 0xFF 8 0xFF) := by decide

theorem witness_StepExecutesDecodedCommand :
    (machine t2 [.word 0x02620305]).pending = .word 0x02620305 :: [] ∧
      decode 0x02620305 = some (.lde 0x62 3 5) := by decide

/-- Control in the error state; data and Illegal words in the error state; Illegal and data without an error. -/
theorem witness_DispatchOfEveryWord :
    ((machine { t2 with err := 5 } [.word 0x01000000]).pending = [.word 0x01000000] ∧
      decode 0x01000000 = some .clr ∧ isControl .clr = true) ∧
    ((machine { t2 with err := 5 } [.word 0x04610000]).engine.err ≠ 0 ∧
      decode 0x04610000 = some (.psym 0x61) ∧ isControl (.psym 0x61) = false) ∧
    ((machine { t2 with err := 5 } [.word 0xFFFFFFFF]).engine.err ≠ 0 ∧ decode 0xFFFFFFFF = none) ∧
    ((machine t2 [.word 0x0A000000]).engine.err = 0 ∧ decode 0x0A000000 = none) ∧
    ((machine t2 [.word 0x05000000]).engine.err = 0 ∧ decode 0x05000000 = some .pflush ∧
      isControl .pflush = false) := by decide

theorem witness_DataCommandDiscardedInErrorState :
    isControl (.ubyte 0) = false ∧ (machine { t2 with err := 5 } []).engine.err ≠ 0 := by decide

theorem witness_HardwareResetGivesResetState : (machine t2 [.rst]).pending = .rst :: [] := by decide

theorem witness_NoInputLeavesTheStateAlone : (machine t2 []).pending = [] := by decide

theorem witness_OutputsAreOnlyAppended :
    step (machine { t2 with rem := 4 } [.word 0x06000010]) =
      .next { engine := t2, pending := [], out := [.sout 0x61, .sout 0x61, .sout 0x61, .sout 0x62] } := rfl

/-- Lengths 0, 9 and 255; values 2^len at lengths 1 and 7; the least and the greatest legal pair. -/
theorem witness_LdeLoadsOneEntry :
    (machine t2 []).engine.err = 0 ∧
    ((0x00 : Byte).toNat = 0) ∧ (8 < (0x09 : Byte).toNat) ∧ (8 < (0xFF : Byte).toNat) ∧
    (1 ≤ (0x01 : Byte).toNat ∧ (0x01 : Byte).toNat ≤ 8 ∧ 2 ^ (0x01 : Byte).toNat ≤ (0x02 : Byte).toNat) ∧
    (1 ≤ (0x07 : Byte).toNat ∧ (0x07 : Byte).toNat ≤ 8 ∧ 2 ^ (0x07 : Byte).toNat ≤ (0x80 : Byte).toNat) ∧
    (1 ≤ (0x01 : Byte).toNat ∧ (0x01 : Byte).toNat ≤ 8 ∧ (0x00 : Byte).toNat < 2 ^ (0x01 : Byte).toNat) ∧
    (1 ≤ (0x08 : Byte).toNat ∧ (0x08 : Byte).toNat ≤ 8 ∧ (0xFF : Byte).toNat < 2 ^ (0x08 : Byte).toNat) := by
  decide

theorem witness_LoadOrderOfDistinctEntriesIsIrrelevant :
    (machine t2 []).engine.TablesOk ∧ (machine t2 []).engine.err = 0 ∧
      1 ≤ (0x01 : Byte).toNat ∧ (0x01 : Byte).toNat ≤ 8 ∧ (0x01 : Byte).toNat < 2 ^ (0x01 : Byte).toNat ∧
      1 ≤ (0x08 : Byte).toNat ∧ (0x08 : Byte).toNat ≤ 8 ∧ (0xFF : Byte).toNat < 2 ^ (0x08 : Byte).toNat ∧
      (0x61 : Byte) ≠ 0x62 ∧ ((0x01 : Byte), (0x01 : Byte)) ≠ ((0x08 : Byte), (0xFF : Byte)) :=
  ⟨t2_tablesOk, by decide⟩

/-- V101 and V102. -/
theorem witness_LaterLoadWins :
    Engine.reset.err = 0 ∧ 1 ≤ (0x01 : Byte).toNat ∧ (0x01 : Byte).toNat ≤ 8 ∧
      (0x00 : Byte).toNat < 2 ^ (0x01 : Byte).toNat ∧ 1 ≤ (0x02 : Byte).toNat ∧ (0x02 : Byte).toNat ≤ 8 ∧
      (0x02 : Byte).toNat < 2 ^ (0x02 : Byte).toNat := by decide

/-- Kept over a `PSYM`; lost over `CLR`; lost when its codeword is loaded for another symbol. -/
theorem witness_CodewordDecodesToItsSymbolUntilReloaded :
    t2.TablesOk ∧ encLookup t2 0x61 = some ⟨1, 0⟩ ∧ decLookup t2 1 0 = some 0x61 ∧
      (stepped t2 [.word 0x04610000]).isSome = true ∧ (stepped t2 [.word 0x01000000]).isSome = true ∧
      (stepped t2 [.word 0x02630100]).map (fun r => decLookup r.1 1 0) = some (some 0x63) :=
  ⟨t2_tablesOk, by decide⟩

/-- A load of a new length. -/
theorem witness_CandidateLengthsOnlyGrow :
    (stepped t2 [.word 0x02630202]).map (fun r => (decide (r.1 ≠ Engine.reset), decide (r.1.vlens ≠ t2.vlens))) =
      some (true, true) := by decide

/-- No codeword; 7 bits and 1 more; 8 bits and 1 more; 8 bits and 8 more. -/
theorem witness_PsymAppendsTheCodeword :
    encLookup t2 0x63 = none ∧ t2.err = 0 ∧ encLookup t2 0x62 = some ⟨1, 1⟩ ∧
      (0x7F : BitVec 16).toNat < 2 ^ (7 : BitVec 5).toNat ∧ (7 : BitVec 5).toNat + 1 ≤ 8 ∧
      (0xFF : BitVec 16).toNat < 2 ^ (8 : BitVec 5).toNat ∧ 8 < (8 : BitVec 5).toNat + 1 ∧
      encLookup (loaded [⟨0x63, 8, 0xF0⟩]) 0x63 = some ⟨8, 0xF0⟩ ∧ (0xF0 : Byte).toNat < 2 ^ (8 : BitVec 4).toNat := by
  decide

/-- An empty buffer, one bit, eight bits. -/
theorem witness_PflushEmitsWhatIsLeft :
    t2.err = 0 ∧ t2.plen = 0 ∧
      (1 ≤ (1 : BitVec 5).toNat ∧ (1 : BitVec 5).toNat ≤ 8 ∧ (1 : BitVec 16).toNat < 2 ^ (1 : BitVec 5).toNat) ∧
      (1 ≤ (8 : BitVec 5).toNat ∧ (8 : BitVec 5).toNat ≤ 8 ∧ (0xFF : BitVec 16).toNat < 2 ^ (8 : BitVec 5).toNat) := by
  decide

/-- Two machines that differ in every item of the unpacker. -/
theorem witness_PackerReadsOnlyItsOwnState :
    isPacker (.psym 0x61) = true ∧ isPacker .pflush = true ∧
      (machine t2 []).engine.pbuf =
        (machine { t2 with rem := 3, ubuf := 1, ulen := 1, trail := true, vlens := 2, dec := [] } []).engine.pbuf ∧
      (machine t2 []).engine.plen =
        (machine { t2 with rem := 3, ubuf := 1, ulen := 1, trail := true, vlens := 2, dec := [] } []).engine.plen ∧
      (machine t2 []).engine.enc =
        (machine { t2 with rem := 3, ubuf := 1, ulen := 1, trail := true, vlens := 2, dec := [] } []).engine.enc ∧
      (machine t2 []).engine.err =
        (machine { t2 with rem := 3, ubuf := 1, ulen := 1, trail := true, vlens := 2, dec := [] } []).engine.err := by
  decide

/-- X3. -/
theorem witness_PayloadLagsByOneToEightBits :
    (machine t2 (inputsOf ([0x61, 0x61, 0x61, 0x62].map Instr.psym))).engine.Inv ∧ t2.err = 0 ∧ t2.plen = 0 ∧
      t2.Covers [0x61, 0x61, 0x61, 0x62] ∧ [0x61, 0x61, 0x61, (0x62 : Byte)] ≠ [] ∧
      (machine t2 (inputsOf ([0x61, 0x61, 0x61, 0x62].map Instr.psym))).pending =
        inputsOf ([0x61, 0x61, 0x61, 0x62].map Instr.psym) ++ [] :=
  ⟨t2_inv, rfl, rfl, t2_covers, by decide, rfl⟩

/-- X3. -/
theorem witness_PackPassEmitsThePayload :
    (machine t2 (packInputs [0x61, 0x61, 0x61, 0x62])).engine.Inv ∧ t2.err = 0 ∧ t2.plen = 0 ∧
      t2.Covers [0x61, 0x61, 0x61, 0x62] ∧
      (machine t2 (packInputs [0x61, 0x61, 0x61, 0x62])).pending = packInputs [0x61, 0x61, 0x61, 0x62] ++ [] :=
  ⟨t2_inv, rfl, rfl, t2_covers, rfl⟩

/-- The empty input, X5. -/
theorem witness_PayloadSizeLaw :
    (machine t2 (packInputs [])).engine.Inv ∧ t2.err = 0 ∧ t2.plen = 0 ∧ t2.Covers [] ∧
      (machine t2 (packInputs [])).pending = packInputs [] ++ [] :=
  ⟨t2_inv, rfl, rfl, by unfold Engine.Covers; decide, rfl⟩

theorem witness_SettOpensAPass : (machine { t5 with rem := 7, ubuf := 3, ulen := 2 } []).engine.err = 0 := rfl

theorem witness_UbyteAfterThePassOnlySetsTrail :
    (machine t2 []).engine.err = 0 ∧ (machine t2 []).engine.rem = 0 := ⟨rfl, rfl⟩

/-- The three ends: V73 complete, V76 and V78 with bits waiting, V84 unknown; and V83, the empty table. -/
theorem witness_UbyteParsesItsBits :
    ({ t2 with rem := 4 } : Engine).Inv ∧ ({ t5 with rem := 1, ubuf := 7, ulen := 3 } : Engine).Inv ∧
      ({ Engine.reset with rem := 1 } : Engine).Inv ∧
      (parse { t2 with rem := 4 } 0 4 (byteBits 0x10)).2 = .complete [false, false, false, false] ∧
      (parse { t5 with rem := 10 } 0 10 (byteBits 0x5B)).2 = .truncated [true, true] ∧
      (parse { loaded [⟨0x61, 1, 0⟩] with rem := 2 } 0 2 (byteBits 0x40)).2 =
        .unknown [true, false, false, false, false, false, false] ∧
      ({ t5 with rem := 1, ubuf := 7, ulen := 3 } : Engine).rem ≠ 0 := by
  refine ⟨?_, ?_, ?_, by decide, by decide, by decide, by decide⟩
  · exact inv_of_no_error (t2_tablesOk.congr rfl rfl rfl) rfl rfl (by decide) (by decide) (by decide) (.inl rfl)
      (fun _ => rfl)
  · exact inv_of_no_error (t5_tablesOk.congr rfl rfl rfl) rfl rfl (by decide) (by decide) (by decide)
      (.inr (by decide)) (fun h => absurd h (by decide))
  · exact inv_of_no_error (reset_tablesOk.congr rfl rfl rfl) rfl rfl (by decide) (by decide) (by decide) (.inl rfl)
      (fun _ => rfl)

theorem witness_UendChecksTheCount :
    t2.err = 0 ∧ t2.rem = 0 ∧ ({ t2 with rem := 255 } : Engine).err = 0 ∧
      ({ t2 with rem := 255 } : Engine).rem ≠ 0 := by decide

/-- A `UBYTE` after the pass, and the `SETT` that opens the next one. -/
theorem witness_CompletePassEmitsNoMoreSymbols :
    t2.rem = 0 ∧ (stepped t2 [.word 0x060000FF]).isSome = true ∧
      (stepped t2 [.word 0x03000004]).map (fun r => r.1.rem) = some 4 := by decide

/-- All hypotheses for each end: P1 complete; V107 truncated; V81 unknown. -/
theorem witness_UnpackPassFollowsTheParse :
    ((machine t2 (unpackInputs 4 [0x10])).engine.Inv ∧ t2.err = 0 ∧ t2.vlens ≠ 0 ∧
      (machine t2 (unpackInputs 4 [0x10])).pending = unpackInputs 4 [0x10] ++ [] ∧
      (parse t2 0 4 (streamBits [0x10])).2 = .complete [false, false, false, false]) ∧
    ((machine t5 (unpackInputs 10 [0x5B, 0xBC])).engine.Inv ∧ t5.err = 0 ∧ t5.vlens ≠ 0 ∧
      (machine t5 (unpackInputs 10 [0x5B, 0xBC])).pending = unpackInputs 10 [0x5B, 0xBC] ++ [] ∧
      (parse t5 0 10 (streamBits [0x5B, 0xBC])).2 = .truncated []) ∧
    ((machine th (unpackInputs 3 [0x30])).engine.Inv ∧ th.err = 0 ∧ th.vlens ≠ 0 ∧
      (machine th (unpackInputs 3 [0x30])).pending = unpackInputs 3 [0x30] ++ [] ∧
      (parse th 0 3 (streamBits [0x30])).2 = .unknown [true, true, false, false, false, false]) :=
  ⟨⟨t2_inv, rfl, by decide, rfl, by decide⟩, ⟨t5_inv, rfl, by decide, rfl, by decide⟩,
    ⟨th_inv, rfl, by decide, rfl, by decide⟩⟩

/-- X3, and the machine on which P1 unpacks it. -/
theorem witness_UnpackOfPackIsTheInput :
    (machine t2 (packInputs [0x61, 0x61, 0x61, 0x62])).engine.Inv ∧ t2.err = 0 ∧ t2.plen = 0 ∧ t2.PrefixFree ∧
      t2.DecMirrorsEnc ∧ t2.Covers [0x61, 0x61, 0x61, 0x62] ∧ [0x61, 0x61, 0x61, (0x62 : Byte)].length ≤ 255 ∧
      (machine t2 (packInputs [0x61, 0x61, 0x61, 0x62])).pending = packInputs [0x61, 0x61, 0x61, 0x62] ++ [] ∧
      (machine t2 (unpackInputs 4 [0x10])).pending = unpackInputs (BitVec.ofNat 8 4) [0x10] ++ [] :=
  ⟨t2_inv, rfl, rfl, t2_prefixFree, t2_decMirrorsEnc, t2_covers, by decide, rfl, rfl⟩

theorem witness_StepKeepsInvariant :
    (machine t2 [.word 0x04610000]).Inv ∧ (stepped t2 [.word 0x04610000]).isSome = true := ⟨t2_inv, by decide⟩

/-- V58's error, and a step that records none. -/
theorem witness_RaiseRecordsTheWholeWord :
    t2.err = 0 ∧ (stepped t2 [.word 0x04630000]).map (fun r => (r.1.err, r.1.einfo)) = some (6, 0x04630000) ∧
      (stepped t2 [.word 0x04610000]).map (fun r => r.1.err) = some 0 := by decide

/-- A discarded command, `CLR` and `rst`, each in the error state. -/
theorem witness_OnlyClearingLeavesTheErrorState :
    ({ t2 with err := 5 } : Engine).err ≠ 0 ∧ (stepped { t2 with err := 5 } [.word 0x04610000]).isSome = true ∧
      (stepped { t2 with err := 5 } [.word 0x01000000]).isSome = true ∧
      (stepped { t2 with err := 5 } [.rst]).isSome = true := by decide

theorem witness_ErrLineRisesOnErrorAndFallsOnClear :
    (stepped t2 [.word 0x04630000]).map (fun r => (errLine t2, errLine r.1)) = some (false, true) ∧
      (stepped { t2 with err := 5 } [.rst]).map (fun r => (errLine { t2 with err := 5 }, errLine r.1)) =
        some (true, false) := by decide

/-- One command for each clause. -/
theorem witness_CommandsWriteOnlyTheirItems :
    (ran t2 0x03000004).isSome = true ∧ isPacker (.sett 4) = false ∧ (ran t2 0x04610000).isSome = true ∧
      (ran t2 0x08000000).isSome = true ∧ isControl .rdstat = true ∧ (ran t2 0x05000000).isSome = true := by decide

/-- P8: a `PSYM` and a `UBYTE`. -/
theorem witness_PackerAndUnpackerDoNotInterfere :
    isPacker (.psym 0x61) = true ∧ isUnpacker (.ubyte 0x10) = true ∧
      (ran { t2 with rem := 4 } 0x04610000).map (fun r => r.1.err) = some 0 ∧
      (ran { t2 with rem := 4 } 0x06000010).map (fun r => r.1.err) = some 0 := by decide

theorem witness_ClrSettAndLdeAreIdempotent :
    (ran t2 0x01000000).isSome = true ∧ (ran t2 0x03000004).isSome = true ∧ (ran t2 0x02630202).isSome = true := by
  decide

theorem witness_HeaderSizeLaw : writeHeader 255 [⟨0x61, 1, 0⟩] = .ok [0x01, 0xFF, 0x61, 0x01, 0x00] := rfl

/-- The greatest counts the format carries. -/
theorem witness_StreamReadsBack : (255 : Nat) ≤ 255 ∧ (List.replicate 255 (Triple.mk 0 1 0)).length ≤ 255 :=
  ⟨Nat.le_refl _, Nat.le_of_eq List.length_replicate⟩

theorem witness_StreamRoundTrip :
    GoodTable [⟨0x61, 1, 0⟩, ⟨0x62, 1, 1⟩] ∧ [Triple.mk 0x61 1 0, ⟨0x62, 1, 1⟩].length ≤ 255 ∧
      [0x61, 0x61, 0x61, (0x62 : Byte)].length ≤ 255 ∧
      (∀ sym ∈ [0x61, 0x61, 0x61, (0x62 : Byte)], sym ∈ [Triple.mk 0x61 1 0, ⟨0x62, 1, 1⟩].map Triple.sym) ∧
      (machine { t5 with err := 5 }
        (inputsOf (packCommands [⟨0x61, 1, 0⟩, ⟨0x62, 1, 1⟩] [0x61, 0x61, 0x61, 0x62]))).pending =
        inputsOf (packCommands [⟨0x61, 1, 0⟩, ⟨0x62, 1, 1⟩] [0x61, 0x61, 0x61, 0x62]) ++ [] :=
  ⟨good_table, by decide, by decide, by decide, rfl⟩

/-- The shortest and the longest bit-string. -/
theorem witness_LdcAssemblesToALoadThatSucceeds :
    (255 : Nat) < 256 ∧ 1 ≤ [true].length ∧ (List.replicate 8 true).length ≤ 8 ∧ (machine t2 []).engine.err = 0 := by
  decide

theorem witness_UnpkAssemblesToTheUnpackSequence :
    (SourceLine.unpk [2, 4, 0x61, 1, 0, 0x62, 1, 1, 0x10]).wellFormed = true := by decide

/-- A stream one byte short of its header, a whole one, and one with T = 0 and trailing bytes. -/
theorem witness_HostUnpackCommandsOfAStream :
    [1, 0, 0x61, (1 : Byte)].length < 2 + 3 * ([1, 0, 0x61, (1 : Byte)].getD 0 0).toNat ∧
      2 + 3 * ([1, 2, 0x61, 1, (0 : Byte)].getD 0 0).toNat ≤ [1, 2, 0x61, 1, (0 : Byte)].length ∧
      (2 + 3 * ([1, 0, 0x61, 1, 0, (0xFF : Byte)].getD 0 0).toNat ≤ [1, 0, 0x61, 1, 0, (0xFF : Byte)].length ∧
        [1, 0, 0x61, 1, 0, (0xFF : Byte)].getD 1 0 = 0) := by decide

/-- The stream of X3 with a byte more than it needs: `DONE` is 1 after the first payload byte. -/
theorem witness_StoppingAtDoneLosesNothing :
    Host.Core.run Sys2Proof.core
        (unpackOpening ⟨4, [⟨0x61, 1, 0⟩, ⟨0x62, 1, 1⟩], [0x10, 0xFF]⟩ ([0x10, 0xFF].take 1)).length
        { machine t5 [] with
          pending := inputsOf (unpackOpening ⟨4, [⟨0x61, 1, 0⟩, ⟨0x62, 1, 1⟩], [0x10, 0xFF]⟩
            ([0x10, 0xFF].take 1)) ++ [] } =
      .next { engine := t2, pending := [], out := [.sout 0x61, .sout 0x61, .sout 0x61, .sout 0x62] } ∧
    done t2 = true :=
  ⟨rfl, by decide⟩

end Sys2Proof.Tests
end

section
/-! Bit-strings against (length, value) pairs, and the two plain facts about a step (spec/00_scope.md R6, R9). -/

namespace Sys2Proof.Machine

/-! ### `str` and `pair` undo each other -/

/-- 00_scope.md R9: the first character is the most significant bit. -/
theorem getElem?_strOf {n i : Nat} (v : Nat) (hi : i < n) : (strOf n v)[i]? = some (v.testBit (n - 1 - i)) := by
  induction n generalizing i with
  | zero => omega
  | succ n ih =>
    cases i with
    | zero => simp [strOf]
    | succ i =>
      rw [strOf, List.getElem?_cons_succ, ih (by omega)]
      congr 2
      omega

/-- A first character b in front of a string adds b at the string's length. -/
theorem valueOf_cons (b : Bool) (s : List Bool) : valueOf (b :: s) = b.toNat * 2 ^ s.length + valueOf s := by
  cases b <;> simp [valueOf]

/-- A string of n characters keeps the low n bits of the value. -/
theorem valueOf_strOf (n v : Nat) : valueOf (strOf n v) = v % 2 ^ n := by
  induction n with
  | zero => simp [Nat.mod_one]
  | succ n ih =>
    rw [strOf, valueOf_cons, ih, strOf_length, Nat.toNat_testBit, Nat.mod_pow_succ, Nat.mul_comm, Nat.add_comm]

@[simp] theorem strOf_one_toNat (b : Bool) : strOf 1 b.toNat = [b] := by cases b <;> rfl

theorem strOf_valueOf (s : List Bool) : strOf s.length (valueOf s) = s := by
  induction s with
  | nil => rfl
  | cons b s ih =>
    rw [List.length_cons, Nat.add_comm, valueOf_cons, strOf_append 1 _ _ _ (valueOf_lt s), ih, strOf_one_toNat,
      List.singleton_append]

theorem pairOf_strOf {n v : Nat} (h : v < 2 ^ n) : pairOf (strOf n v) = (n, v) := by
  rw [pairOf, strOf_length, valueOf_strOf, Nat.mod_eq_of_lt h]

theorem strOf_pairOf (s : List Bool) : strOf (pairOf s).1 (pairOf s).2 = s := strOf_valueOf s

/-- Having `strOf` as a left inverse, `pairOf` tells strings apart. -/
theorem pairOf_injective : Function.Injective pairOf :=
  Function.LeftInverse.injective (g := Function.uncurry strOf) strOf_pairOf

/-- Settles O5: `pair` undoes `str` because an n-character string keeps exactly the low n bits; `str` undoes `pair` by
induction on the string, and so `pair` is injective. -/
theorem strAndPairAreInverse : Obligations.StrAndPairAreInverse :=
  ⟨fun _ v _ hi => getElem?_strOf v hi,
    fun _ _ => pairOf_injective.eq_iff.symm,
    fun _ _ hv => pairOf_strOf hv,
    fun s => ⟨valueOf_lt s, strOf_pairOf s⟩⟩

/-! ### The step -/

/-- Settles O6, by the step's case of a word that decodes. -/
theorem stepExecutesDecodedCommand : Obligations.StepExecutesDecodedCommand :=
  fun _ _ _ _ hpending hdecode => step_command hpending hdecode

/-- Settles O10, by the step's case of an empty queue. -/
theorem noInputLeavesTheStateAlone : Obligations.NoInputLeavesTheStateAlone :=
  fun _ hpending => step_idle hpending

end Sys2Proof.Machine
end

section
/-! Facts about the decoder and about a command's effect that the statements on the state need: the word of a decoded
command, and the write columns of spec/10_state.md R26. -/

namespace Sys2Proof

/-- The command of an opcode, whose unused fields are 0, has the word of its fields (30_encoding.md R82, R84). -/
theorem encode_of_commandOf {op a b c : Byte} {f : Format} {i : Instr} (hf : formatOf op = some f)
    (hz : unusedFieldsZero f a b c = true) (hc : commandOf op a b c = some i) : encode i = wordOf op a b c := by
  unfold formatOf at hf
  split_ifs at hf <;> subst op <;> cases hf <;> cases hc <;>
    simp_all [unusedFieldsZero, encode]

/-- A legal word is its command's word (30_encoding.md R84). -/
theorem encode_of_decode {w : Word} {i : Instr} (h : decode w = some i) : encode i = w := by
  rw [← wordOf_fields w, decode_wordOf] at h
  rw [← wordOf_fields w]
  split at h
  · cases h
  · rename_i f hf
    split_ifs at h with hz
    exact encode_of_commandOf hf hz h

end Sys2Proof

namespace Sys2Proof.Machine

/-! ### The gate -/

/-- In the error state a data command is discarded (60_exceptions.md R174). -/
theorem effectOf_of_error {i : Instr} {e : Engine} (hi : isControl i = false) (he : e.err ≠ 0) :
    effectOf i e = (e, []) := by
  cases i with
  | nop | clr | rdstat | rderr => cases hi
  | lde _ _ _ | sett _ | psym _ | pflush | ubyte _ | uend => exact whenNoError_of_error _ he

/-! ### The write columns of R26 -/

/-- `old` with the items that command `i` may write taken from `new` (10_state.md R26). -/
def writeColumn (i : Instr) (new old : Engine) : Engine :=
  match i with
  | .nop => old
  | .clr => new
  | .lde _ _ _ => { old with vlens := new.vlens, enc := new.enc, dec := new.dec, err := new.err, einfo := new.einfo }
  | .sett _ => { old with ubuf := new.ubuf, ulen := new.ulen, rem := new.rem, trail := new.trail }
  | .psym _ => { old with pbuf := new.pbuf, plen := new.plen, err := new.err, einfo := new.einfo }
  | .pflush => { old with pbuf := new.pbuf, plen := new.plen }
  | .ubyte _ =>
    { old with
      ubuf := new.ubuf, ulen := new.ulen, rem := new.rem, trail := new.trail, err := new.err, einfo := new.einfo }
  | .uend => { old with err := new.err, einfo := new.einfo }
  | .rdstat => old
  | .rderr => old

@[simp] theorem writeColumn_self (i : Instr) (e : Engine) : writeColumn i e e = e := by cases i <;> rfl

/-- A command writes the items of its column only (10_state.md R26). -/
theorem effectOf_writes (i : Instr) (e : Engine) : (effectOf i e).1 = writeColumn i (effectOf i e).1 e := by
  by_cases he : e.err = 0
  · cases i with
    | nop | clr | rdstat | rderr => rfl
    | lde sym len val =>
      rw [effectOf, whenNoError_of_none _ he]
      rcases ldeEffect_cases (encode (.lde sym len val)) sym len val e with ⟨-, h⟩ | ⟨-, -, -, h⟩ | ⟨-, -, -, h⟩ <;>
        rw [h] <;> rfl
    | sett t => rw [effectOf, whenNoError_of_none _ he]; rfl
    | psym sym =>
      rw [effectOf, whenNoError_of_none _ he]
      rcases psymEffect_cases (encode (.psym sym)) sym e with ⟨-, h⟩ | ⟨c, -, h⟩
      · rw [h]; rfl
      · rcases emitIfOverByte_cases (appendCodeword c e) with ⟨-, h'⟩ | ⟨-, h'⟩ <;> rw [h, h'] <;> rfl
    | pflush =>
      rw [effectOf, whenNoError_of_none _ he]
      rcases pflushEffect_cases e with ⟨-, h⟩ | ⟨-, h⟩ <;> rw [h] <;> rfl
    | ubyte b =>
      rw [effectOf, whenNoError_of_none _ he]
      rcases ubyteEffect_cases (encode (.ubyte b)) b e with ⟨-, h⟩ | ⟨-, h⟩
      · rw [h]; rfl
      · obtain ⟨e', syms, hfeed, hframe, -⟩ := feedBits_cases (encode (.ubyte b)) (byteBits b) e
        rw [h, hfeed, hframe]; rfl
    | uend =>
      rw [effectOf, whenNoError_of_none _ he]
      rcases uendEffect_cases (encode .uend) e with ⟨-, h⟩ | ⟨-, h⟩ <;> rw [h] <;> rfl
  · cases hi : isControl i with
    | true =>
      cases i with
      | nop | clr | rdstat | rderr => rfl
      | lde _ _ _ | sett _ | psym _ | pflush | ubyte _ | uend => cases hi
    | false => rw [effectOf_of_error hi he, writeColumn_self]

end Sys2Proof.Machine
end

section
/-! What one command can do, said once for the statements on the state (spec/10_state.md R26): the items it leaves
alone, the error it can record, and the only two ways its tables change. -/

namespace Sys2Proof.Machine

variable {i : Instr}

/-! ### What a command leaves alone -/

/-- Only the packer's commands and `CLR` write PBUF and PLEN. -/
theorem effectOf_keeps_packer (e : Engine) (hclr : i ≠ .clr) (hi : isPacker i = false) :
    (effectOf i e).1.pbuf = e.pbuf ∧ (effectOf i e).1.plen = e.plen := by
  rw [effectOf_writes]
  cases i <;> simp_all [writeColumn, isPacker]

/-- Only `SETT`, `UBYTE` and `CLR` write UBUF, ULEN, REM and TRAIL. -/
theorem effectOf_keeps_unpacker (e : Engine) (hclr : i ≠ .clr) (hsett : ∀ n, i ≠ .sett n)
    (hubyte : ∀ b, i ≠ .ubyte b) :
    (effectOf i e).1.ubuf = e.ubuf ∧ (effectOf i e).1.ulen = e.ulen ∧ (effectOf i e).1.rem = e.rem ∧
      (effectOf i e).1.trail = e.trail := by
  rw [effectOf_writes]
  cases i <;> simp_all [writeColumn]

/-- Only `LDE` and `CLR` write VLENS, ENC and DEC. -/
theorem effectOf_keeps_tables (e : Engine) (hclr : i ≠ .clr) (hlde : ∀ sym len val, i ≠ .lde sym len val) :
    (effectOf i e).1.vlens = e.vlens ∧ (effectOf i e).1.enc = e.enc ∧ (effectOf i e).1.dec = e.dec := by
  rw [effectOf_writes]
  cases i <;> simp_all [writeColumn]

/-- `NOP`, `RDSTAT` and `RDERR` write nothing. -/
theorem effectOf_control (e : Engine) (hi : isControl i = true) (hclr : i ≠ .clr) : (effectOf i e).1 = e := by
  cases i <;> simp_all [isControl, effectOf]

/-- `SETT` and `PFLUSH` raise nothing. -/
theorem effectOf_keeps_error (e : Engine) (hi : (∃ n, i = .sett n) ∨ i = .pflush) :
    (effectOf i e).1.err = e.err ∧ (effectOf i e).1.einfo = e.einfo := by
  rw [effectOf_writes]
  rcases hi with ⟨n, rfl⟩ | rfl <;> exact ⟨rfl, rfl⟩

/-! ### The error a command can record -/

theorem errorCode_ne_zero (k : ErrorKind) : errorCode k ≠ 0 := by cases k <;> decide

/-- Raising records an error, whatever its kind. -/
theorem raise_err_ne_zero (k : ErrorKind) (w : Word) (e : Engine) : (raise k w e).err ≠ 0 := errorCode_ne_zero k

/-- Any command but `CLR` leaves ERR and EINFO as they are or, with no error recorded, records one
with its own word (60_exceptions.md R173, R174). -/
theorem effectOf_error_cases (e : Engine) (hclr : i ≠ .clr) :
    ((effectOf i e).1.err = e.err ∧ (effectOf i e).1.einfo = e.einfo) ∨
      (e.err = 0 ∧ (effectOf i e).1.err ≠ 0 ∧ (effectOf i e).1.einfo = encode i) := by
  by_cases he : e.err = 0
  · cases i with
    | clr => exact absurd rfl hclr
    | nop | rdstat | rderr => exact .inl ⟨rfl, rfl⟩
    | sett n => exact .inl (effectOf_keeps_error e (.inl ⟨n, rfl⟩))
    | pflush => exact .inl (effectOf_keeps_error e (.inr rfl))
    | lde sym len val =>
      rw [effectOf, whenNoError_of_none _ he]
      rcases ldeEffect_cases (encode (.lde sym len val)) sym len val e with
        ⟨-, h⟩ | ⟨-, -, -, h⟩ | ⟨-, -, -, h⟩ <;> rw [h]
      · exact .inr ⟨he, raise_err_ne_zero _ _ _, rfl⟩
      · exact .inr ⟨he, raise_err_ne_zero _ _ _, rfl⟩
      · exact .inl ⟨rfl, rfl⟩
    | psym sym =>
      rw [effectOf, whenNoError_of_none _ he]
      rcases psymEffect_cases (encode (.psym sym)) sym e with ⟨-, h⟩ | ⟨c, -, h⟩ <;> rw [h]
      · exact .inr ⟨he, raise_err_ne_zero _ _ _, rfl⟩
      · rcases emitIfOverByte_cases (appendCodeword c e) with ⟨-, h⟩ | ⟨-, h⟩ <;> rw [h] <;> exact .inl ⟨rfl, rfl⟩
    | ubyte b =>
      rw [effectOf, whenNoError_of_none _ he]
      rcases ubyteEffect_cases (encode (.ubyte b)) b e with ⟨-, h⟩ | ⟨-, h⟩ <;> rw [h]
      · exact .inl ⟨rfl, rfl⟩
      · obtain ⟨e', syms, hfeed, -, -, -, hsame | ⟨herr, hinfo, -⟩⟩ :=
          feedBits_cases (encode (.ubyte b)) (byteBits b) e
        · rw [hfeed]; exact .inl hsame
        · rw [hfeed]; exact .inr ⟨he, by rw [herr]; exact errorCode_ne_zero _, hinfo⟩
    | uend =>
      rw [effectOf, whenNoError_of_none _ he]
      rcases uendEffect_cases (encode .uend) e with ⟨-, h⟩ | ⟨-, h⟩ <;> rw [h]
      · exact .inl ⟨rfl, rfl⟩
      · exact .inr ⟨he, raise_err_ne_zero _ _ _, rfl⟩
  · cases hi : isControl i with
    | true => rw [effectOf_control e hi hclr]; exact .inl ⟨rfl, rfl⟩
    | false => rw [effectOf_of_error hi he]; exact .inl ⟨rfl, rfl⟩

/-! ### The tables -/

/-- `e` loaded by a legal `LDE` of these operands gives `e'` (40_control_and_table.md R113). -/
def LoadsTo (sym len val : Byte) (e e' : Engine) : Prop :=
  1 ≤ len.toNat ∧ len.toNat ≤ 8 ∧ val.toNat < 2 ^ len.toNat ∧ e' = loadEntry sym len val e

/-- The tables of two engines are the same. -/
def SameTables (e e' : Engine) : Prop := e'.vlens = e.vlens ∧ e'.enc = e.enc ∧ e'.dec = e.dec

/-- A command leaves the tables alone, clears the engine, or loads one entry (10_state.md R26, R36). -/
theorem effectOf_tables (i : Instr) (e : Engine) :
    SameTables e (effectOf i e).1 ∨ (effectOf i e).1 = Engine.reset ∨
      ∃ sym len val, i = .lde sym len val ∧ LoadsTo sym len val e (effectOf i e).1 := by
  by_cases hclr : i = .clr
  · subst hclr; exact .inr (.inl rfl)
  by_cases hlde : ∃ sym len val, i = .lde sym len val
  · obtain ⟨sym, len, val, rfl⟩ := hlde
    by_cases he : e.err = 0
    · rw [effectOf, whenNoError_of_none _ he]
      rcases ldeEffect_cases (encode (.lde sym len val)) sym len val e with
        ⟨-, h⟩ | ⟨-, -, -, h⟩ | ⟨h₁, h₈, hval, h⟩ <;> rw [h]
      · exact .inl ⟨rfl, rfl, rfl⟩
      · exact .inl ⟨rfl, rfl, rfl⟩
      · exact .inr (.inr ⟨sym, len, val, rfl, h₁, h₈, hval, rfl⟩)
    · rw [effectOf_of_error rfl he]; exact .inl ⟨rfl, rfl, rfl⟩
  · exact .inl (effectOf_keeps_tables e hclr fun sym len val h => hlde ⟨sym, len, val, h⟩)

/-- A step leaves the tables alone, ends in the reset engine, or is the legal `LDE` that loads one entry. -/
theorem step_tables {s t : State} (h : step s = .next t) :
    SameTables s.engine t.engine ∨ t.engine = Engine.reset ∨
      ∃ sym len val, s.pending.head? = some (.word (encode (.lde sym len val))) ∧
        LoadsTo sym len val s.engine t.engine := by
  rcases step_cases h with ⟨-, rfl⟩ | ⟨rest, -, rfl⟩ | ⟨w, rest, i, hp, hd, hexec⟩ | ⟨w, rest, -, -, -, rfl⟩ |
    ⟨w, rest, -, -, -, rfl⟩
  · exact .inl ⟨rfl, rfl, rfl⟩
  · exact .inr (.inl rfl)
  · rw [exec_eq] at hexec
    cases hexec
    rcases effectOf_tables i s.engine with hsame | hreset | ⟨sym, len, val, rfl, hload⟩
    · exact .inl hsame
    · exact .inr (.inl hreset)
    · exact .inr (.inr ⟨sym, len, val, by rw [hp, encode_of_decode hd]; rfl, hload⟩)
  · exact .inl ⟨rfl, rfl, rfl⟩
  · exact .inl ⟨rfl, rfl, rfl⟩

end Sys2Proof.Machine
end

section
/-! The invariant of the engine (spec/10_state.md R30, R32, R36, R37; spec/60_exceptions.md R171): it holds at reset and
every step keeps it. -/

namespace Sys2Proof.Machine

variable {e : Engine}

/-! ### The recorded error -/

/-- What 60_exceptions.md R171 says of the engine that recorded this error. The engine never raises codes 1 and 2. -/
def ErrorReason (k : ErrorKind) (e : Engine) : Prop :=
  match k with
  | .tooManySymbols => False
  | .inputTooLarge => False
  | .unsupportedCodewordLength =>
    ∃ sym len val, e.einfo = encode (.lde sym len val) ∧ (len.toNat = 0 ∨ 8 < len.toNat)
  | .truncatedStream => e.einfo = 0x07000000 ∧ e.rem ≠ 0
  | .unknownSymbolInPayload => ∃ b, e.einfo = encode (.ubyte b)
  | .noCodeForSymbol => ∃ sym, e.einfo = encode (.psym sym) ∧ encLookup e sym = none
  | .badCodewordValue =>
    ∃ sym len val, e.einfo = encode (.lde sym len val) ∧ 1 ≤ len.toNat ∧ len.toNat ≤ 8 ∧ 2 ^ len.toNat ≤ val.toNat
  | .illegalCommand => decode e.einfo = none

/-- ERR holds the code of one kind at most, so the reason of that kind is all there is to show. -/
theorem errorOk_of_code {k : ErrorKind} (hk : e.err = errorCode k) (hr : ErrorReason k e) : e.ErrorOk := by
  have reason : ∀ {k'}, e.err = errorCode k' → ErrorReason k' e := fun h => by
    rw [hk, errorCode_inj] at h
    exact h ▸ hr
  refine ⟨.inr ?_, fun h => absurd (hk ▸ h) (errorCode_ne_zero k), reason, reason, reason, reason, reason, reason⟩
  rw [hk]
  cases k with
  | tooManySymbols | inputTooLarge => exact hr.elim
  | unsupportedCodewordLength | truncatedStream | unknownSymbolInPayload | noCodeForSymbol | badCodewordValue
    | illegalCommand => decide

/-- With ERR and EINFO 0 nothing is to be explained (10_state.md R32). -/
theorem errorOk_of_none (herr : e.err = 0) (hinfo : e.einfo = 0) : e.ErrorOk := by
  have no_code : ∀ {k} {P : Prop}, e.err = errorCode k → P := fun {k} _ h =>
    absurd (h.symm.trans herr) (errorCode_ne_zero k)
  exact ⟨.inl herr, fun _ => hinfo, no_code, no_code, no_code, no_code, no_code, no_code⟩

/-! ### The two buffers -/

/-- An error other than the unpacker's overflow says nothing of the buffers (10_state.md R37). -/
theorem raise_buffersOk {k : ErrorKind} (w : Word) (hb : e.BuffersOk) (he : e.err = 0)
    (hk : k ≠ .unknownSymbolInPayload) : (raise k w e).BuffersOk :=
  ⟨hb.plenBound, hb.pbufLive, hb.ulenBound, hb.ubufLive,
    fun _ => hb.ulenShort (he ▸ (errorCode_ne_zero _).symm), fun h => absurd (errorCode_inj.1 h) hk, hb.remZero⟩

/-- The overflow that ends a `UBYTE` leaves at least the failing bit (10_state.md R37, last sentence). -/
theorem raise_unknown_buffersOk (w : Word) (hp₁ : e.plen.toNat ≤ 8) (hp₂ : e.pbuf.toNat < 2 ^ e.plen.toNat)
    (hu₁ : e.ulen.toNat ≤ 8) (hu₂ : e.ubuf.toNat < 2 ^ e.ulen.toNat) (hulen : e.ulen ≠ 0)
    (hmax : maxlen e.vlens ≤ e.ulen.toNat) (hrem : e.rem ≠ 0) :
    (raise .unknownSymbolInPayload w e).BuffersOk :=
  ⟨hp₁, hp₂, hu₁, hu₂, fun h => absurd rfl h, fun _ => ⟨hulen, hmax⟩, fun h => absurd h hrem⟩

/-- With no error recorded the unpacker's buffer has room for a bit (10_state.md R37 (b)). -/
theorem ulen_lt_eight (hb : e.BuffersOk) (he : e.err = 0) : e.ulen.toNat < 8 := by
  rcases hb.ulenShort (he ▸ (errorCode_ne_zero _).symm) with h | h
  · rw [h]; decide
  · exact Nat.lt_of_lt_of_le h (maxlen_le _)

/-- An empty UBUF is always right with no error recorded; the packer's items are looked at on their own. -/
theorem buffersOk_of_ulen_zero {e' : Engine} (hb : e.BuffersOk) (hplen : e'.plen = e.plen) (hpbuf : e'.pbuf = e.pbuf)
    (hubuf : e'.ubuf = 0) (hulen : e'.ulen = 0) (he : e'.err = 0) : e'.BuffersOk :=
  ⟨by rw [hplen]; exact hb.plenBound, by rw [hplen, hpbuf]; exact hb.pbufLive, by rw [hulen]; decide,
    by rw [hulen, hubuf]; decide, fun _ => .inl hulen, fun h => absurd (h.symm.trans he) (errorCode_ne_zero _),
    fun _ => hulen⟩

/-- The bits of a byte keep the buffers right, whether they end with an overflow or not (42_unpack.md R150 to R152). -/
theorem feedBits_buffersOk (w : Word) (bits : List Bool) (hb : e.BuffersOk) (he : e.err = 0) :
    (feedBits w bits e).1.BuffersOk := by
  induction bits generalizing e with
  | nil => exact hb
  | cons b rest ih =>
    by_cases hrem : e.rem = 0
    · rw [feedBits_stop w _ hrem]; exact hb
    have hroom := ulen_lt_eight hb he
    have hlen := shiftIn_ulen_toNat b hroom
    have hlive := shiftIn_live b hroom hb.ubufLive
    cases hl : bufferLookup (shiftIn b e) with
    | some sym =>
      rw [feedBits_hit w hrem hl]
      exact ih (buffersOk_of_ulen_zero hb rfl rfl rfl rfl he) he
    | none =>
      by_cases hmax : maxlen e.vlens ≤ (shiftIn b e).ulen.toNat
      · rw [feedBits_overflow w hrem hl hmax]
        refine raise_unknown_buffersOk w hb.plenBound hb.pbufLive (by omega) hlive (fun h => ?_) hmax hrem
        rw [h] at hlen
        exact absurd hlen (Nat.succ_ne_zero _).symm
      · rw [feedBits_wait w hrem hl hmax]
        exact ih ⟨hb.plenBound, hb.pbufLive, by omega, hlive, fun _ => .inr (Nat.lt_of_not_le hmax),
          fun h => absurd (h.symm.trans he) (errorCode_ne_zero _), fun h => absurd h hrem⟩ he

/-- Appending a codeword and sending off a full byte leaves PBUF right (41_pack.md R133). -/
theorem emit_append_buffersOk {c : EncEntry} (hb : e.BuffersOk) (hl : c.len.toNat ≤ 8)
    (hv : c.val.toNat < 2 ^ c.len.toNat) : (emitIfOverByte (appendCodeword c e)).1.BuffersOk := by
  have hlen := appendCodeword_plen_toNat hb.plenBound hl
  rcases emitIfOverByte_cases (appendCodeword c e) with ⟨hle, h⟩ | ⟨hgt, h⟩ <;> rw [h]
  · exact ⟨hle, appendCodeword_live hb.plenBound hb.pbufLive hl hv, hb.ulenBound, hb.ubufLive, hb.ulenShort,
      hb.ulenLong, hb.remZero⟩
  · have hdrop := dropLeadingByte_plen_toNat hgt
    have hbound := hb.plenBound
    refine ⟨hdrop.trans_le (by omega), ?_, hb.ulenBound, hb.ubufLive, hb.ulenShort, hb.ulenLong, hb.remZero⟩
    rw [dropLeadingByte_pbuf_toNat, hdrop]
    exact Nat.mod_lt _ (Nat.two_pow_pos _)

/-- A load only adds a candidate, so a UBUF shorter than `maxlen(VLENS)` stays so (10_state.md R33, R37 (b)). -/
theorem loadEntry_buffersOk (sym : Byte) {len : Byte} (val : Byte) (h₁ : 1 ≤ len.toNat) (h₈ : len.toNat ≤ 8)
    (hb : e.BuffersOk) (he : e.err = 0) : (loadEntry sym len val e).BuffersOk := by
  have hmono : maxlen e.vlens ≤ maxlen (loadEntry sym len val e).vlens :=
    maxlen_mono fun l hl => by rw [isCandidate_loadEntry sym val l e h₁ h₈, hl, Bool.or_true]
  exact ⟨hb.plenBound, hb.pbufLive, hb.ulenBound, hb.ubufLive,
    fun h => (hb.ulenShort h).imp_right fun hlt => Nat.lt_of_lt_of_le hlt hmono,
    fun h => absurd (h.symm.trans he) (errorCode_ne_zero _), hb.remZero⟩

/-! ### Every command keeps the invariant -/

/-- With no error recorded before and after, the invariant is the tables' and the buffers'. -/
theorem inv_of_none (ht : e.TablesOk) (hb : e.BuffersOk) (herr : e.err = 0) (hinfo : e.einfo = 0) : e.Inv :=
  ⟨ht, hb, errorOk_of_none herr hinfo⟩

/-- Recording an error other than the unpacker's overflow, for its reason. -/
theorem raise_inv {k : ErrorKind} {w : Word} (h : e.Inv) (he : e.err = 0) (hk : k ≠ .unknownSymbolInPayload)
    (hr : ErrorReason k (raise k w e)) : (raise k w e).Inv :=
  ⟨h.tables.congr rfl rfl rfl, raise_buffersOk w h.buffers he hk, errorOk_of_code rfl hr⟩

/-- The engine as R40 says: empty tables, empty buffers, no error. -/
theorem reset_inv : Engine.reset.Inv :=
  inv_of_none reset_tablesOk
    ⟨by decide, by decide, by decide, by decide, fun _ => .inl rfl, fun h => absurd h (by decide), fun _ => rfl⟩
    rfl rfl

section NoError
variable (h : e.Inv) (he : e.err = 0)
include h he

/-- R113: the two errors and the load. -/
theorem ldeEffect_inv (sym len val : Byte) : (ldeEffect (encode (.lde sym len val)) sym len val e).1.Inv := by
  rcases ldeEffect_cases (encode (.lde sym len val)) sym len val e with
    ⟨hlen, h'⟩ | ⟨h₁, h₈, hval, h'⟩ | ⟨h₁, h₈, hval, h'⟩ <;> rw [h']
  · exact raise_inv h he (by decide) ⟨sym, len, val, rfl, hlen⟩
  · exact raise_inv h he (by decide) ⟨sym, len, val, rfl, h₁, h₈, hval⟩
  · exact inv_of_none (loadEntry_tablesOk sym h₁ h₈ hval h.tables) (loadEntry_buffersOk sym val h₁ h₈ h.buffers he) he
      (h.error.noError he)

/-- R145: the unpacker starts with an empty buffer. -/
theorem settEffect_inv (n : Byte) : (settEffect n e).1.Inv :=
  inv_of_none (h.tables.congr rfl rfl rfl) (buffersOk_of_ulen_zero h.buffers rfl rfl rfl rfl he) he (h.error.noError he)

/-- R131: no codeword, or a legal codeword (R36 (c)) appended. -/
theorem psymEffect_inv (sym : Byte) : (psymEffect (encode (.psym sym)) sym e).1.Inv := by
  rcases psymEffect_cases (encode (.psym sym)) sym e with ⟨hnone, h'⟩ | ⟨c, hsome, h'⟩ <;> rw [h']
  · exact raise_inv h he (by decide) ⟨sym, rfl, hnone⟩
  · obtain ⟨-, hl, hv⟩ := h.tables.encLegal sym c hsome
    have hb := emit_append_buffersOk h.buffers hl hv
    rcases emitIfOverByte_cases (appendCodeword c e) with ⟨-, h''⟩ | ⟨-, h''⟩ <;> rw [h''] at hb ⊢ <;>
      exact inv_of_none (h.tables.congr rfl rfl rfl) hb he (h.error.noError he)

/-- R132: nothing, or an emptied PBUF. -/
theorem pflushEffect_inv : (pflushEffect e).1.Inv := by
  rcases pflushEffect_cases e with ⟨-, h'⟩ | ⟨-, h'⟩ <;> rw [h']
  · exact h
  · have hb := h.buffers
    exact inv_of_none (h.tables.congr rfl rfl rfl)
      ⟨Nat.zero_le _, Nat.one_pos, hb.ulenBound, hb.ubufLive, hb.ulenShort, hb.ulenLong, hb.remZero⟩ he
      (h.error.noError he)

/-- R150 to R152: a discarded byte, or its bits. -/
theorem ubyteEffect_inv (b : Byte) : (ubyteEffect (encode (.ubyte b)) b e).1.Inv := by
  rcases ubyteEffect_cases (encode (.ubyte b)) b e with ⟨-, h'⟩ | ⟨-, h'⟩ <;> rw [h']
  · have hb := h.buffers
    exact inv_of_none (h.tables.congr rfl rfl rfl)
      ⟨hb.plenBound, hb.pbufLive, hb.ulenBound, hb.ubufLive, hb.ulenShort, hb.ulenLong, hb.remZero⟩ he
      (h.error.noError he)
  · have hb := feedBits_buffersOk (encode (.ubyte b)) (byteBits b) h.buffers he
    obtain ⟨e', syms, hfeed, hframe, -, -, herr⟩ := feedBits_cases (encode (.ubyte b)) (byteBits b) e
    rw [hfeed] at hb ⊢
    refine ⟨h.tables.congr (by rw [hframe]) (by rw [hframe]) (by rw [hframe]), hb, ?_⟩
    rcases herr with ⟨herr, hinfo⟩ | ⟨herr, hinfo, -⟩
    · exact errorOk_of_none (herr.trans he) (hinfo.trans (h.error.noError he))
    · exact errorOk_of_code herr ⟨b, hinfo⟩

/-- R153: nothing, or `TruncatedStream` with symbols still to come. -/
theorem uendEffect_inv : (uendEffect (encode .uend) e).1.Inv := by
  rcases uendEffect_cases (encode .uend) e with ⟨-, h'⟩ | ⟨hrem, h'⟩ <;> rw [h']
  · exact h
  · have hword : encode .uend = 0x07000000 := by decide
    exact raise_inv h he (by decide) ⟨hword, hrem⟩

/-- An Illegal word is recorded as it came (60_exceptions.md R171 code 8). -/
theorem raise_illegal_inv {w : Word} (hw : decode w = none) : (raise .illegalCommand w e).Inv :=
  raise_inv h he (by decide) hw

end NoError

/-- Every command keeps the invariant: from the error state nothing but `CLR` changes the engine. -/
theorem effectOf_inv (i : Instr) (h : e.Inv) : (effectOf i e).1.Inv := by
  cases hi : isControl i with
  | true =>
    by_cases hclr : i = .clr
    · subst hclr; exact reset_inv
    · rw [effectOf_control e hi hclr]; exact h
  | false =>
    by_cases he : e.err = 0
    · cases i with
      | nop | clr | rdstat | rderr => cases hi
      | lde sym len val => rw [effectOf, whenNoError_of_none _ he]; exact ldeEffect_inv h he sym len val
      | sett n => rw [effectOf, whenNoError_of_none _ he]; exact settEffect_inv h he n
      | psym sym => rw [effectOf, whenNoError_of_none _ he]; exact psymEffect_inv h he sym
      | pflush => rw [effectOf, whenNoError_of_none _ he]; exact pflushEffect_inv h he
      | ubyte b => rw [effectOf, whenNoError_of_none _ he]; exact ubyteEffect_inv h he b
      | uend => rw [effectOf, whenNoError_of_none _ he]; exact uendEffect_inv h he
    · rw [effectOf_of_error hi he]; exact h

/-- Settles O38: empty tables, empty buffers, no error. -/
theorem invariantHoldsAtReset : Obligations.InvariantHoldsAtReset := reset_inv

/-- Settles O39: a step leaves the engine as it is, resets it, executes a command or records an Illegal word. -/
theorem stepKeepsInvariant : Obligations.StepKeepsInvariant := by
  intro s t hs hstep
  rcases step_cases hstep with ⟨-, rfl⟩ | ⟨rest, -, rfl⟩ | ⟨w, rest, i, -, -, hexec⟩ | ⟨w, rest, -, hd, he, rfl⟩ |
    ⟨w, rest, -, -, -, rfl⟩
  · exact hs
  · exact reset_inv
  · rw [exec_eq] at hexec
    cases hexec
    exact effectOf_inv i hs
  · exact raise_illegal_inv hs he hd
  · exact hs

end Sys2Proof.Machine
end

section
/-! The statements on the view STATUS, the reset values, what each command may write, and what the tables go on holding
(spec/10_state.md R26, R31, R33, R36, R40). -/

namespace Sys2Proof.Machine

/-! ### STATUS and the reset values -/

/-- Settles O17: bit for bit, each bit of the concatenation falls into the part of its field. -/
theorem statusFieldsAtTheirBits : Obligations.StatusFieldsAtTheirBits := by
  refine ⟨by decide, fun e => ?_⟩
  have hdone : done e = decide (e.rem = 0) := rfl
  unfold status
  refine ⟨?_, ?_, ?_, ?_, ?_, ?_, ?_, ?_⟩
  · ext i hi; simp; grind
  · ext i hi; simp; grind
  · ext i hi; simp; grind
  · ext i hi; simp; grind
  · simp only [BitVec.getLsbD_append]; simp
  · simp only [BitVec.getLsbD_append]; simp [hdone]
  · simp only [BitVec.getLsbD_append]; simp
  · ext i hi; simp; grind

/-- Settles O13: the values are read off the reset state; `rst` and `CLR` both clear the engine and nothing else. -/
theorem resetAndClrValues : Obligations.ResetAndClrValues := by
  refine ⟨⟨rfl, rfl, rfl, rfl, rfl, rfl, rfl, rfl, fun _ => rfl, fun _ _ => rfl, rfl, rfl, by decide, rfl⟩,
    fun s rest hpending => step_rst hpending, fun s => ?_⟩
  rw [exec_eq, effectOf, List.append_nil]
  rfl

/-! ### The write columns -/

/-- Settles O43: what each group of commands leaves alone, and a command takes no input. -/
theorem commandsWriteOnlyTheirItems : Obligations.CommandsWriteOnlyTheirItems := by
  intro s t i hexec
  rw [exec_eq] at hexec
  cases hexec
  exact ⟨effectOf_keeps_packer s.engine, effectOf_keeps_unpacker s.engine, effectOf_keeps_tables s.engine,
    effectOf_control s.engine, effectOf_keeps_error s.engine, rfl⟩

/-! ### The tables along a step -/

/-- A load of another symbol and another codeword leaves a codeword decoding to its symbol. -/
theorem LoadsTo.keeps_codeword {e e' : Engine} {other len val sym : Byte} {c : EncEntry}
    (h : LoadsTo other len val e e') (hc : c.val.toNat < 2 ^ c.len.toNat) (hsym : other ≠ sym)
    (hcode : ¬ (len.toNat = c.len.toNat ∧ val = c.val)) (henc : encLookup e sym = some c)
    (hdec : decLookup e c.len.toNat c.val.toNat = some sym) :
    encLookup e' sym = some c ∧ decLookup e' c.len.toNat c.val.toNat = some sym := by
  obtain ⟨-, -, hval, rfl⟩ := h
  constructor
  · rw [encLookup_loadEntry, if_neg hsym.symm, henc]
  · rw [decLookup_loadEntry other e hval hc, if_neg, hdec]
    rintro ⟨hl, hv⟩
    exact hcode ⟨hl.symm, BitVec.eq_of_toNat_eq hv.symm⟩

/-- Settles O22: the tables change by a clear or by an `LDE`, and only an `LDE` of the symbol or of the codeword writes
one of the two entries. -/
theorem codewordDecodesToItsSymbolUntilReloaded : Obligations.CodewordDecodesToItsSymbolUntilReloaded := by
  intro s t sym c htables hstep henc hdec
  rcases step_tables hstep with ⟨-, hE, hD⟩ | hreset | ⟨other, len, val, hp, hload⟩
  · exact .inl ⟨by rw [encLookup, hE]; exact henc, by rw [decLookup, hD]; exact hdec⟩
  · exact .inr (.inl hreset)
  · by_cases hhit : other = sym ∨ (len.toNat = c.len.toNat ∧ val = c.val)
    · exact .inr (.inr ⟨other, len, val, hp, hhit⟩)
    · obtain ⟨hsym, hcode⟩ := not_or.1 hhit
      exact .inl (hload.keeps_codeword (htables.encLegal sym c henc).2.2 hsym hcode henc hdec)

/-- Settles O23: without a clear, VLENS stays or an `LDE` adds a length. -/
theorem candidateLengthsOnlyGrow : Obligations.CandidateLengthsOnlyGrow := by
  intro s t hstep hreset
  rcases step_tables hstep with ⟨hV, -, -⟩ | h | ⟨sym, len, val, hp, h₁, h₈, -, hload⟩
  · exact ⟨fun l hl => by rw [hV]; exact hl, fun hne => absurd hV hne⟩
  · exact absurd h hreset
  · refine ⟨fun l hl => ?_, fun _ => ⟨sym, len, val, hp⟩⟩
    rw [hload, isCandidate_loadEntry sym val l _ h₁ h₈, hl, Bool.or_true]

end Sys2Proof.Machine
end

section
/-! The packer and the unpacker do not interfere (spec/10_state.md R26; spec/70_reset_and_hazards.md R218): each writes
its own registers and port, and neither reads what the other writes. -/

namespace Sys2Proof.Machine

/-! ### The two halves of the engine -/

/-- `e` with the packer's registers of `p`. -/
def withPackerOf (p e : Engine) : Engine := { e with pbuf := p.pbuf, plen := p.plen }

/-- `e` with the unpacker's registers of `u`. -/
def withUnpackerOf (u e : Engine) : Engine := { e with ubuf := u.ubuf, ulen := u.ulen, rem := u.rem, trail := u.trail }

@[simp] theorem withPackerOf_rem (p e : Engine) : (withPackerOf p e).rem = e.rem := rfl
@[simp] theorem withUnpackerOf_plen (u e : Engine) : (withUnpackerOf u e).plen = e.plen := rfl

theorem withPackerOf_withUnpackerOf (p u e : Engine) :
    withPackerOf p (withUnpackerOf u e) = withUnpackerOf u (withPackerOf p e) := rfl

/-- A packer command that ends with no error writes the packer's registers only. -/
theorem effectOf_packer_engine {i : Instr} {e : Engine} (hi : isPacker i = true) (he : (effectOf i e).1.err = 0) :
    (effectOf i e).1 = withPackerOf (effectOf i e).1 e := by
  have hclr : i ≠ .clr := by rintro rfl; cases hi
  rcases effectOf_error_cases e hclr with ⟨herr, hinfo⟩ | ⟨-, hne, -⟩
  · conv_lhs => rw [effectOf_writes]
    cases i with
    | nop | clr | lde _ _ _ | sett _ | ubyte _ | uend | rdstat | rderr => cases hi
    | psym sym => simp [writeColumn, withPackerOf, herr, hinfo]
    | pflush => rfl
  · exact absurd he hne

/-- An unpacker command that ends with no error writes the unpacker's registers only. -/
theorem effectOf_unpacker_engine {j : Instr} {e : Engine} (hj : isUnpacker j = true) (he : (effectOf j e).1.err = 0) :
    (effectOf j e).1 = withUnpackerOf (effectOf j e).1 e := by
  have hclr : j ≠ .clr := by rintro rfl; cases hj
  rcases effectOf_error_cases e hclr with ⟨herr, hinfo⟩ | ⟨-, hne, -⟩
  · conv_lhs => rw [effectOf_writes]
    cases j with
    | nop | clr | lde _ _ _ | psym _ | pflush | rdstat | rderr => cases hj
    | sett n => rfl
    | ubyte b => simp [writeColumn, withUnpackerOf, herr, hinfo]
    | uend =>
      obtain ⟨hubuf, hulen, hrem, htrail⟩ := effectOf_keeps_unpacker (i := .uend) e (by simp) (by simp) (by simp)
      simp [writeColumn, withUnpackerOf, herr, hinfo, hubuf, hulen, hrem, htrail]
  · exact absurd he hne

/-! ### Neither reads what the other writes -/

/-- The gate looks at ERR only, so it commutes with a change that ERR and the effect do not see. -/
theorem whenNoError_map {f : Engine → Engine × List Output} {g : Engine → Engine} {e : Engine}
    (herr : (g e).err = e.err) (hf : f (g e) = Prod.map g id (f e)) :
    whenNoError f (g e) = Prod.map g id (whenNoError f e) := by
  by_cases he : e.err = 0
  · rw [whenNoError_of_none _ he, whenNoError_of_none _ (herr.trans he), hf]
  · rw [whenNoError_of_error _ he, whenNoError_of_error _ (herr ▸ he)]
    rfl

theorem emitIfOverByte_withUnpackerOf (u e : Engine) :
    emitIfOverByte (withUnpackerOf u e) = Prod.map (withUnpackerOf u) id (emitIfOverByte e) := by
  by_cases h : 8 < e.plen.toNat <;> simp only [emitIfOverByte, withUnpackerOf_plen, h, reduceIte] <;> rfl

theorem psymEffect_withUnpackerOf (w : Word) (sym : Byte) (u e : Engine) :
    psymEffect w sym (withUnpackerOf u e) = Prod.map (withUnpackerOf u) id (psymEffect w sym e) := by
  have hlookup : encLookup (withUnpackerOf u e) sym = encLookup e sym := rfl
  cases h : encLookup e sym with
  | none => simp only [psymEffect, hlookup, h]; rfl
  | some c =>
    simp only [psymEffect, hlookup, h]
    exact emitIfOverByte_withUnpackerOf u (appendCodeword c e)

theorem pflushEffect_withUnpackerOf (u e : Engine) :
    pflushEffect (withUnpackerOf u e) = Prod.map (withUnpackerOf u) id (pflushEffect e) := by
  by_cases h : e.plen = 0 <;> simp only [pflushEffect, withUnpackerOf_plen, h, reduceIte] <;> rfl

/-- The bits of a byte do the same whatever the packer's registers hold. -/
theorem feedBits_withPackerOf (w : Word) (bits : List Bool) (p e : Engine) :
    feedBits w bits (withPackerOf p e) = Prod.map (withPackerOf p) id (feedBits w bits e) := by
  induction bits generalizing e with
  | nil => rfl
  | cons b rest ih =>
    by_cases hrem : e.rem = 0
    · rw [feedBits_stop w _ hrem, feedBits_stop w _ (e := withPackerOf p e) hrem]; rfl
    cases hl : bufferLookup (shiftIn b e) with
    | some sym =>
      rw [feedBits_hit w hrem hl, feedBits_hit w (e := withPackerOf p e) hrem hl]
      have hrest := ih (consumeHit (shiftIn b e))
      exact congrArg (fun r => (r.1, Output.sout sym :: r.2)) hrest
    | none =>
      by_cases hmax : maxlen e.vlens ≤ (shiftIn b e).ulen.toNat
      · rw [feedBits_overflow w hrem hl hmax, feedBits_overflow w (e := withPackerOf p e) hrem hl hmax]; rfl
      · rw [feedBits_wait w hrem hl hmax, feedBits_wait w (e := withPackerOf p e) hrem hl hmax]
        exact ih (shiftIn b e)

theorem ubyteEffect_withPackerOf (w : Word) (b : Byte) (p e : Engine) :
    ubyteEffect w b (withPackerOf p e) = Prod.map (withPackerOf p) id (ubyteEffect w b e) := by
  by_cases h : e.rem = 0
  · simp only [ubyteEffect, withPackerOf_rem, h, reduceIte]; rfl
  · simp only [ubyteEffect, withPackerOf_rem, h, reduceIte]
    exact feedBits_withPackerOf w (byteBits b) p e

theorem uendEffect_withPackerOf (w : Word) (p e : Engine) :
    uendEffect w (withPackerOf p e) = Prod.map (withPackerOf p) id (uendEffect w e) := by
  by_cases h : e.rem = 0 <;> simp only [uendEffect, withPackerOf_rem, h, reduceIte] <;> rfl

/-- A packer command does the same whatever the unpacker's registers hold (10_state.md R26). -/
theorem effectOf_packer_withUnpackerOf {i : Instr} (hi : isPacker i = true) (u e : Engine) :
    effectOf i (withUnpackerOf u e) = Prod.map (withUnpackerOf u) id (effectOf i e) := by
  cases i with
  | nop | clr | lde _ _ _ | sett _ | ubyte _ | uend | rdstat | rderr => cases hi
  | psym sym => exact whenNoError_map rfl (psymEffect_withUnpackerOf _ sym u e)
  | pflush => exact whenNoError_map rfl (pflushEffect_withUnpackerOf u e)

/-- An unpacker command does the same whatever the packer's registers hold (10_state.md R26). -/
theorem effectOf_unpacker_withPackerOf {j : Instr} (hj : isUnpacker j = true) (p e : Engine) :
    effectOf j (withPackerOf p e) = Prod.map (withPackerOf p) id (effectOf j e) := by
  cases j with
  | nop | clr | lde _ _ _ | psym _ | pflush | rdstat | rderr => cases hj
  | sett n => exact whenNoError_map rfl rfl
  | ubyte b => exact whenNoError_map rfl (ubyteEffect_withPackerOf _ b p e)
  | uend => exact whenNoError_map rfl (uendEffect_withPackerOf _ p e)

/-! ### The ports -/

theorem isControl_of_isPacker {i : Instr} (hi : isPacker i = true) : isControl i = false := by
  cases i <;> simp_all [isPacker, isControl]

theorem isControl_of_isUnpacker {j : Instr} (hj : isUnpacker j = true) : isControl j = false := by
  cases j <;> simp_all [isUnpacker, isControl]

/-- A packer command emits on POUT only. -/
theorem effectOf_packer_outputs {i : Instr} (hi : isPacker i = true) (e : Engine) :
    ∃ bytes, (effectOf i e).2 = List.map Output.pout bytes := by
  by_cases he : e.err = 0
  · cases i with
    | nop | clr | lde _ _ _ | sett _ | ubyte _ | uend | rdstat | rderr => cases hi
    | psym sym =>
      rw [effectOf, whenNoError_of_none _ he]
      rcases psymEffect_cases (encode (.psym sym)) sym e with ⟨-, h⟩ | ⟨c, -, h⟩ <;> rw [h]
      · exact ⟨[], rfl⟩
      · rcases emitIfOverByte_cases (appendCodeword c e) with ⟨-, h⟩ | ⟨-, h⟩ <;> rw [h]
        · exact ⟨[], rfl⟩
        · exact ⟨[_], rfl⟩
    | pflush =>
      rw [effectOf, whenNoError_of_none _ he]
      rcases pflushEffect_cases e with ⟨-, h⟩ | ⟨-, h⟩ <;> rw [h]
      · exact ⟨[], rfl⟩
      · exact ⟨[_], rfl⟩
  · rw [effectOf_of_error (isControl_of_isPacker hi) he]
    exact ⟨[], rfl⟩

/-- An unpacker command emits on SOUT only. -/
theorem effectOf_unpacker_outputs {j : Instr} (hj : isUnpacker j = true) (e : Engine) :
    ∃ syms, (effectOf j e).2 = List.map Output.sout syms := by
  by_cases he : e.err = 0
  · cases j with
    | nop | clr | lde _ _ _ | psym _ | pflush | rdstat | rderr => cases hj
    | sett n => rw [effectOf, whenNoError_of_none _ he]; exact ⟨[], rfl⟩
    | ubyte b =>
      rw [effectOf, whenNoError_of_none _ he]
      rcases ubyteEffect_cases (encode (.ubyte b)) b e with ⟨-, h⟩ | ⟨-, h⟩ <;> rw [h]
      · exact ⟨[], rfl⟩
      · obtain ⟨e', syms, hfeed, -⟩ := feedBits_cases (encode (.ubyte b)) (byteBits b) e
        exact ⟨syms, by rw [hfeed]⟩
    | uend =>
      rw [effectOf, whenNoError_of_none _ he]
      rcases uendEffect_cases (encode .uend) e with ⟨-, h⟩ | ⟨-, h⟩ <;> rw [h] <;> exact ⟨[], rfl⟩
  · rw [effectOf_of_error (isControl_of_isUnpacker hj) he]
    exact ⟨[], rfl⟩

section Ports
variable (out out' : List Output) (bytes : List Byte)
@[simp] theorem poutOf_append : poutOf (out ++ out') = poutOf out ++ poutOf out' := List.filterMap_append
@[simp] theorem soutOf_append : soutOf (out ++ out') = soutOf out ++ soutOf out' := List.filterMap_append
@[simp] theorem rspOf_append : rspOf (out ++ out') = rspOf out ++ rspOf out' := List.filterMap_append
@[simp] theorem poutOf_map_sout : poutOf (bytes.map .sout) = [] := by simp [poutOf]
@[simp] theorem soutOf_map_pout : soutOf (bytes.map .pout) = [] := by simp [soutOf]
@[simp] theorem rspOf_map_pout : rspOf (bytes.map .pout) = [] := by simp [rspOf]
@[simp] theorem rspOf_map_sout : rspOf (bytes.map .sout) = [] := by simp [rspOf]
end Ports

/-- Outputs of the two in either order are the same on each port. -/
theorem ports_comm (out : List Output) (bytes syms : List Byte) :
    poutOf (out ++ bytes.map .pout ++ syms.map .sout) = poutOf (out ++ syms.map .sout ++ bytes.map .pout) ∧
    soutOf (out ++ bytes.map .pout ++ syms.map .sout) = soutOf (out ++ syms.map .sout ++ bytes.map .pout) ∧
    rspOf (out ++ bytes.map .pout ++ syms.map .sout) = rspOf (out ++ syms.map .sout ++ bytes.map .pout) := by
  simp

/-! ### Both orders -/

/-- Settles O44: each command's effect after the other is its effect before, on the other's half of the engine. -/
theorem packerAndUnpackerDoNotInterfere : Obligations.PackerAndUnpackerDoNotInterfere := by
  intro s p pu u up i j hi hj hp hpu hu hup hperr huerr
  rw [exec_eq] at hp hpu hu hup
  cases hp
  cases hu
  cases hpu
  cases hup
  have hpack := effectOf_packer_engine hi hperr
  have hunpack := effectOf_unpacker_engine hj huerr
  have hfirst : effectOf j (effectOf i s.engine).1 =
      Prod.map (withPackerOf (effectOf i s.engine).1) id (effectOf j s.engine) := by
    conv_lhs => rw [hpack]
    exact effectOf_unpacker_withPackerOf hj _ s.engine
  have hsecond : effectOf i (effectOf j s.engine).1 =
      Prod.map (withUnpackerOf (effectOf j s.engine).1) id (effectOf i s.engine) := by
    conv_lhs => rw [hunpack]
    exact effectOf_packer_withUnpackerOf hi _ s.engine
  obtain ⟨bytes, hbytes⟩ := effectOf_packer_outputs hi s.engine
  obtain ⟨syms, hsyms⟩ := effectOf_unpacker_outputs hj s.engine
  simp only [hfirst, hsecond, Prod.map_fst, Prod.map_snd, id, hbytes, hsyms]
  refine ⟨?_, ports_comm s.out bytes syms⟩
  calc withPackerOf (effectOf i s.engine).1 (effectOf j s.engine).1
      = withPackerOf (effectOf i s.engine).1 (withUnpackerOf (effectOf j s.engine).1 s.engine) := by rw [← hunpack]
    _ = withUnpackerOf (effectOf j s.engine).1 (withPackerOf (effectOf i s.engine).1 s.engine) :=
        withPackerOf_withUnpackerOf _ _ _
    _ = withUnpackerOf (effectOf j s.engine).1 (effectOf i s.engine).1 := by rw [← hpack]

end Sys2Proof.Machine
end

section
/-! The outputs of one step: how many there are and on which port (spec/20_memory.md R66; spec/60_exceptions.md R181).
Before them the decoder's half that runs of commands need. -/

namespace Sys2Proof

/-- A command's word decodes to the command (30_encoding.md R84). -/
theorem decode_encode (i : Instr) : decode (encode i) = some i := by
  cases i <;> rw [encode, decode_wordOf] <;> rfl

end Sys2Proof

namespace Sys2Proof.Machine

/-! ### The outputs of one command -/

/-- A load emits nothing, whether it succeeds, raises an error or is discarded (40_control_and_table.md R113). -/
theorem effectOf_lde_outputs (sym len val : Byte) (e : Engine) : (effectOf (.lde sym len val) e).2 = [] := by
  by_cases he : e.err = 0
  · rw [effectOf, whenNoError_of_none _ he]
    rcases ldeEffect_cases (encode (.lde sym len val)) sym len val e with
      ⟨-, h⟩ | ⟨-, -, -, h⟩ | ⟨-, -, -, h⟩ <;> rw [h]
  · rw [effectOf_of_error rfl he]

/-- The gate adds no output. -/
theorem whenNoError_outputs_length {f : Engine → Engine × List Output} {e : Engine} {n : Nat}
    (h : (f e).2.length ≤ n) : (whenNoError f e).2.length ≤ n := by
  unfold whenNoError
  split
  · exact h
  · exact Nat.zero_le n

/-- A command emits at most eight values, since a byte completes at most eight codewords (42_unpack.md R150). -/
theorem effectOf_outputs_length (i : Instr) (e : Engine) : (effectOf i e).2.length ≤ 8 := by
  cases i with
  | nop | clr | rdstat | rderr => simp [effectOf]
  | lde sym len val => simp [effectOf_lde_outputs]
  | sett t => exact whenNoError_outputs_length (Nat.zero_le 8)
  | psym sym =>
    refine whenNoError_outputs_length ?_
    rcases psymEffect_cases (encode (.psym sym)) sym e with ⟨-, h⟩ | ⟨c, -, h⟩ <;> rw [h]
    · exact Nat.zero_le 8
    · rcases emitIfOverByte_cases (appendCodeword c e) with ⟨-, h⟩ | ⟨-, h⟩ <;> simp [h]
  | pflush =>
    refine whenNoError_outputs_length ?_
    rcases pflushEffect_cases e with ⟨-, h⟩ | ⟨-, h⟩ <;> simp [h]
  | ubyte b =>
    refine whenNoError_outputs_length ?_
    rcases ubyteEffect_cases (encode (.ubyte b)) b e with ⟨-, h⟩ | ⟨-, h⟩ <;> rw [h]
    · exact Nat.zero_le 8
    · obtain ⟨e', syms, hfeed, -, -, hlen, -⟩ := feedBits_cases (encode (.ubyte b)) (byteBits b) e
      simpa [hfeed] using hlen
  | uend =>
    refine whenNoError_outputs_length ?_
    rcases uendEffect_cases (encode .uend) e with ⟨-, h⟩ | ⟨-, h⟩ <;> simp [h]

/-- All values are on one port (20_memory.md R66; 60_exceptions.md R181). -/
def OnOnePort (new : List Output) : Prop :=
  (∀ o ∈ new, ∃ b, o = .pout b) ∨ (∀ o ∈ new, ∃ sym, o = .sout sym) ∨ (∀ o ∈ new, ∃ w, o = .rsp w)

theorem onOnePort_nil : OnOnePort [] := .inl (by simp)

/-- A packer command emits on POUT, an unpacker command on SOUT, a control command on RSP, and `LDE` nowhere. -/
theorem effectOf_outputs_onOnePort (i : Instr) (e : Engine) : OnOnePort (effectOf i e).2 := by
  cases hp : isPacker i with
  | true => obtain ⟨bytes, h⟩ := effectOf_packer_outputs hp e; exact .inl (by simp [h])
  | false =>
    cases hu : isUnpacker i with
    | true => obtain ⟨syms, h⟩ := effectOf_unpacker_outputs hu e; exact .inr (.inl (by simp [h]))
    | false =>
      cases i with
      | nop | clr => exact onOnePort_nil
      | rdstat | rderr => exact .inr (.inr (by simp [effectOf]))
      | lde sym len val => rw [effectOf_lde_outputs]; exact onOnePort_nil
      | psym _ | pflush => cases hp
      | sett _ | ubyte _ | uend => cases hu

/-- A step takes the oldest input, and appends the outputs of the command it executes or nothing. -/
theorem step_appends {s t : State} (h : step s = .next t) :
    t.pending = s.pending.tail ∧ (t.out = s.out ∨ ∃ i, t.out = s.out ++ (effectOf i s.engine).2) := by
  rcases step_cases h with ⟨hp, rfl⟩ | ⟨rest, hp, rfl⟩ | ⟨w, rest, i, hp, -, hexec⟩ | ⟨w, rest, hp, -, -, rfl⟩ |
    ⟨w, rest, hp, -, -, rfl⟩
  · exact ⟨by rw [hp]; rfl, .inl rfl⟩
  · exact ⟨by rw [hp]; rfl, .inl rfl⟩
  · rw [exec_eq] at hexec
    cases hexec
    exact ⟨by rw [hp]; rfl, .inr ⟨i, rfl⟩⟩
  · exact ⟨by rw [hp]; rfl, .inl rfl⟩
  · exact ⟨by rw [hp]; rfl, .inl rfl⟩

/-- Settles O12: a step appends nothing or one command's outputs, at most eight on one port. -/
theorem outputsAreOnlyAppended : Obligations.OutputsAreOnlyAppended := by
  intro s t hstep
  obtain ⟨hpending, hout | ⟨i, hout⟩⟩ := step_appends hstep
  · exact ⟨hpending, [], by simpa using hout, Nat.zero_le 8, onOnePort_nil⟩
  · exact ⟨hpending, _, hout, effectOf_outputs_length i s.engine, effectOf_outputs_onOnePort i s.engine⟩

end Sys2Proof.Machine
end

section
/-! Loads in another order and commands done twice (spec/20_memory.md R56, R62). -/

namespace Sys2Proof.Machine

/-! ### Loads -/

/-- A legal `LDE` with no error recorded loads its entry (40_control_and_table.md R113). -/
theorem effectOf_lde_legal {e : Engine} (sym : Byte) {len val : Byte} (he : e.err = 0) (h₁ : 1 ≤ len.toNat)
    (h₈ : len.toNat ≤ 8) (hval : val.toNat < 2 ^ len.toNat) :
    effectOf (.lde sym len val) e = (loadEntry sym len val e, []) := by
  rw [effectOf, whenNoError_of_none _ he, ldeEffect, (lengthSupported_iff len).2 ⟨h₁, h₈⟩,
    (valueFits_iff len val).2 hval]
  rfl

/-- Loads of different symbols with different codewords write different slots, so they commute. -/
theorem loadEntry_comm {e : Engine} {a b la lb va vb : Byte} (ht : e.TablesOk)
    (ha₁ : 1 ≤ la.toNat) (ha₈ : la.toNat ≤ 8) (hva : va.toNat < 2 ^ la.toNat)
    (hb₁ : 1 ≤ lb.toNat) (hb₈ : lb.toNat ≤ 8) (hvb : vb.toNat < 2 ^ lb.toNat)
    (hsym : a ≠ b) (hcode : (la, va) ≠ (lb, vb)) :
    loadEntry b lb vb (loadEntry a la va e) = loadEntry a la va (loadEntry b lb vb e) := by
  have henc : encIndex b ≠ encIndex a := fun h => hsym (encIndex_inj.1 h).symm
  have hdec : decIndex lb.toNat vb.toNat ≠ decIndex la.toNat va.toNat := fun h => by
    obtain ⟨hl, hv⟩ := (decIndex_inj hvb hva).1 h
    exact hcode (Prod.ext (BitVec.eq_of_toNat_eq hl.symm) (BitVec.eq_of_toNat_eq hv.symm))
  simp only [loadEntry]
  rw [Table.put_comm _ _ _ henc (encIndex_range b) (encIndex_range a) ht.encCanonical,
    Table.put_comm _ _ _ hdec (decIndex_range hb₁ hb₈ hvb) (decIndex_range ha₁ ha₈ hva) ht.decCanonical,
    BitVec.or_assoc, BitVec.or_comm (1#8 <<< (la.toNat - 1)), ← BitVec.or_assoc]

/-- Settles O20: both loads are legal in either order, and they commute. -/
theorem loadOrderOfDistinctEntriesIsIrrelevant : Obligations.LoadOrderOfDistinctEntriesIsIrrelevant := by
  intro s a b la lb va vb ht he ha₁ ha₈ hva hb₁ hb₈ hvb hsym hcode
  refine ⟨_, _, _, exec_eq _ _, exec_eq _ _, exec_eq _ _, ?_⟩
  rw [exec_eq]
  simp only [effectOf_lde_legal _ he ha₁ ha₈ hva, effectOf_lde_legal _ he hb₁ hb₈ hvb,
    effectOf_lde_legal (e := loadEntry a la va s.engine) b he hb₁ hb₈ hvb,
    effectOf_lde_legal (e := loadEntry b lb vb s.engine) a he ha₁ ha₈ hva,
    loadEntry_comm ht ha₁ ha₈ hva hb₁ hb₈ hvb hsym hcode]

/-! ### Commands done twice -/

/-- The second load writes what already stands. -/
theorem loadEntry_loadEntry_same (sym len val : Byte) (e : Engine) :
    loadEntry sym len val (loadEntry sym len val e) = loadEntry sym len val e := by
  simp only [loadEntry, Table.put_put_same, BitVec.or_assoc, BitVec.or_self]

/-- An `LDE` after the same `LDE` does nothing: it loads the same entry, or the first one raised an error. -/
theorem effectOf_lde_twice (sym len val : Byte) (e : Engine) :
    effectOf (.lde sym len val) (effectOf (.lde sym len val) e).1 = ((effectOf (.lde sym len val) e).1, []) := by
  by_cases he : e.err = 0
  · have hfirst : effectOf (.lde sym len val) e = ldeEffect (encode (.lde sym len val)) sym len val e :=
      whenNoError_of_none _ he
    rcases ldeEffect_cases (encode (.lde sym len val)) sym len val e with
      ⟨-, h⟩ | ⟨-, -, -, h⟩ | ⟨h₁, h₈, hval, h⟩ <;> rw [hfirst, h]
    · exact effectOf_of_error rfl (raise_err_ne_zero _ _ _)
    · exact effectOf_of_error rfl (raise_err_ne_zero _ _ _)
    · rw [effectOf_lde_legal sym (e := loadEntry sym len val e) he h₁ h₈ hval, loadEntry_loadEntry_same]
  · rw [effectOf_of_error rfl he, effectOf_of_error rfl he]

/-- A `SETT` after the same `SETT` does nothing. -/
theorem effectOf_sett_twice (n : Byte) (e : Engine) :
    effectOf (.sett n) (effectOf (.sett n) e).1 = ((effectOf (.sett n) e).1, []) := by
  by_cases he : e.err = 0
  · have hfirst : effectOf (.sett n) e = settEffect n e := whenNoError_of_none _ he
    rw [hfirst]
    exact whenNoError_of_none _ he
  · rw [effectOf_of_error rfl he, effectOf_of_error rfl he]

/-- Settles O46: the second command finds the engine as it would leave it, and emits nothing. -/
theorem clrSettAndLdeAreIdempotent : Obligations.ClrSettAndLdeAreIdempotent := by
  intro s t i hi hexec
  have htwice : effectOf i (effectOf i s.engine).1 = ((effectOf i s.engine).1, []) := by
    rcases hi with rfl | ⟨n, rfl⟩ | ⟨sym, len, val, rfl⟩
    · rfl
    · exact effectOf_sett_twice n s.engine
    · exact effectOf_lde_twice sym len val s.engine
  rw [exec_eq] at hexec
  cases hexec
  rw [exec_eq, htwice, List.append_nil]

end Sys2Proof.Machine
end

section
/-! The CompressedStream (spec/20_memory.md R57, R58, R60): the header's size, the reader after the writer, and the
reader of any stream by its byte offsets. -/

namespace Sys2Proof.Machine

/-- A header that is written is N, T and the bytes of the triples. -/
theorem writeHeader_eq_ok {total : Nat} {triples : List Triple} {header : List Byte}
    (h : writeHeader total triples = .ok header) :
    header = BitVec.ofNat 8 triples.length :: BitVec.ofNat 8 total :: triples.flatMap tripleBytes := by
  unfold writeHeader at h
  split_ifs at h
  cases h
  rfl

/-- Counts that fit their bytes are written. -/
theorem writeHeader_of_le {total : Nat} {triples : List Triple} (htotal : total ≤ 255) (hn : triples.length ≤ 255) :
    writeHeader total triples =
      .ok (BitVec.ofNat 8 triples.length :: BitVec.ofNat 8 total :: triples.flatMap tripleBytes) := by
  rw [writeHeader, if_neg (by simpa using hn), if_neg (by omega)]

theorem length_flatMap_tripleBytes (triples : List Triple) :
    (triples.flatMap tripleBytes).length = 3 * triples.length := by
  simp [List.length_flatMap, tripleBytes, Nat.mul_comm]

/-- Settles O47: two counts and three bytes for each triple. -/
theorem headerSizeLaw : Obligations.HeaderSizeLaw := by
  intro total triples header h
  rw [writeHeader_eq_ok h, List.length_cons, List.length_cons, length_flatMap_tripleBytes]
  omega

/-! ### The reader after the writer -/

/-- Written triples read back, with the bytes after them left over. -/
theorem readTriples_flatMap (triples : List Triple) (payload : List Byte) :
    readTriples triples.length (triples.flatMap tripleBytes ++ payload) = some (triples, payload) := by
  induction triples with
  | nil => rfl
  | cons t ts ih =>
    simp only [List.length_cons, List.flatMap_cons, tripleBytes, List.cons_append, List.nil_append, readTriples, ih]

/-- Settles O48: N in its byte is the number of triples, and that many triples read back. -/
theorem streamReadsBack : Obligations.StreamReadsBack := by
  intro total triples payload htotal hn
  refine ⟨_, writeHeader_of_le htotal hn, ?_⟩
  have hN : (BitVec.ofNat 8 triples.length).toNat = triples.length := by
    rw [BitVec.toNat_ofNat]; omega
  simp only [readStream, List.cons_append, hN, readTriples_flatMap]

/-! ### The reader of any stream -/

/-- Triple i of the bytes after N and T: the bytes at 3i, 3i + 1, 3i + 2 (20_memory.md R57). -/
def tripleAt (body : List Byte) (i : Nat) : Triple :=
  { sym := body.getD (3 * i) 0, len := body.getD (3 * i + 1) 0, val := body.getD (3 * i + 2) 0 }

theorem tripleAt_succ (a b c : Byte) (body : List Byte) (i : Nat) :
    tripleAt (a :: b :: c :: body) (i + 1) = tripleAt body i := by
  simp only [tripleAt, Nat.mul_add, Nat.mul_one, List.getD_cons_succ]

/-- Enough bytes: the triples at their offsets, and the rest is left over. -/
theorem readTriples_of_le {n : Nat} {body : List Byte} (h : 3 * n ≤ body.length) :
    readTriples n body = some ((List.range n).map (tripleAt body), body.drop (3 * n)) := by
  induction n generalizing body with
  | zero => rfl
  | succ n ih =>
    match body, h with
    | a :: b :: c :: body, h =>
      simp only [List.length_cons] at h
      simp only [readTriples, ih (body := body) (by omega), List.range_succ_eq_map, List.map_cons, List.map_map,
        Function.comp_def, tripleAt_succ, Nat.mul_add, Nat.mul_one, List.drop_succ_cons]
      rfl

/-- Bytes missing: there is nothing to read. -/
theorem readTriples_of_lt {n : Nat} {body : List Byte} (h : body.length < 3 * n) : readTriples n body = none := by
  induction n generalizing body with
  | zero => omega
  | succ n ih =>
    match body, h with
    | [], _ | [_], _ | [_, _], _ => rfl
    | _ :: _ :: _ :: body, h =>
      simp only [List.length_cons] at h
      simp only [readTriples, ih (body := body) (by omega)]

/-- A stream shorter than 2 + 3N bytes is truncated (20_memory.md R60 (2)). -/
theorem readStream_of_lt {stream : List Byte} (h : stream.length < 2 + 3 * (stream.getD 0 0).toNat) :
    readStream stream = .error .truncatedStream := by
  match stream, h with
  | [], _ | [_], _ => rfl
  | n :: t :: body, h =>
    simp only [List.length_cons, List.getD_cons_zero] at h
    simp only [readStream, readTriples_of_lt (n := n.toNat) (body := body) (by omega)]

/-- Any other stream is taken apart at its offsets (20_memory.md R57). -/
theorem readStream_of_le {stream : List Byte} (h : 2 + 3 * (stream.getD 0 0).toNat ≤ stream.length) :
    readStream stream = .ok {
      total := stream.getD 1 0
      triples := (List.range (stream.getD 0 0).toNat).map (tripleAt (stream.drop 2))
      payload := stream.drop (2 + 3 * (stream.getD 0 0).toNat) } := by
  match stream, h with
  | [], h | [_], h => simp only [List.length_cons, List.length_nil] at h; omega
  | n :: t :: body, h =>
    simp only [List.length_cons, List.getD_cons_zero] at h
    simp only [readStream, readTriples_of_le (n := n.toNat) (body := body) (by omega), List.getD_cons_zero,
      List.getD_cons_succ, Nat.add_comm 2, List.drop_succ_cons, List.drop_zero]

/-- The `LDE` of a triple has the stream's bytes at 2 + 3i, 3 + 3i, 4 + 3i (20_memory.md R60). -/
theorem tripleCommand_tripleAt_drop (stream : List Byte) (i : Nat) :
    tripleCommand (tripleAt (stream.drop 2) i) =
      .lde (stream.getD (2 + 3 * i) 0) (stream.getD (3 + 3 * i) 0) (stream.getD (4 + 3 * i) 0) := by
  simp only [tripleCommand, tripleAt, List.getD_eq_getElem?_getD, List.getElem?_drop]
  rw [show 2 + (3 * i + 1) = 3 + 3 * i by omega, show 2 + (3 * i + 2) = 4 + 3 * i by omega]

/-- Settles O52: the reader's two cases, and the commands of the parts it gives. -/
theorem hostUnpackCommandsOfAStream : Obligations.HostUnpackCommandsOfAStream := by
  intro stream
  refine ⟨fun h => ?_, fun h => ?_⟩
  · rw [unpackCommands, readStream_of_lt h]
  · rw [unpackCommands, readStream_of_le h]
    simp only [unpackSequence, unpackOpening, hostPresents, List.map_map, Function.comp_def,
      tripleCommand_tripleAt_drop]

end Sys2Proof.Machine
end

section
/-! A host that stops at `DONE` (spec/20_memory.md R60 (5)): once REM = 0, the rest of an unpack pass writes
TRAIL only. -/

namespace Sys2Proof.Machine

theorem done_iff (e : Engine) : done e = true ↔ e.rem = 0 := by simp [done]

/-- In a complete pass a `UBYTE` writes TRAIL at most (42_unpack.md R151). -/
theorem effectOf_ubyte_of_rem_zero (b : Byte) {e : Engine} (h : e.rem = 0) :
    ∃ trail, effectOf (.ubyte b) e = ({ e with trail := trail }, []) := by
  by_cases he : e.err = 0
  · exact ⟨true, (whenNoError_of_none _ he).trans (if_pos h)⟩
  · exact ⟨e.trail, effectOf_of_error rfl he⟩

/-- In a complete pass a `UEND` does nothing (42_unpack.md R153). -/
theorem effectOf_uend_of_rem_zero {e : Engine} (h : e.rem = 0) : effectOf .uend e = (e, []) := by
  by_cases he : e.err = 0
  · exact (whenNoError_of_none _ he).trans (if_pos h)
  · exact effectOf_of_error rfl he

/-- In a complete pass any number of payload bytes writes TRAIL at most. -/
theorem effectsOf_ubytes_of_rem_zero (bytes : List Byte) {e : Engine} (h : e.rem = 0) :
    ∃ trail, effectsOf (bytes.map Instr.ubyte) e = ({ e with trail := trail }, []) := by
  induction bytes generalizing e with
  | nil => exact ⟨e.trail, rfl⟩
  | cons b bytes ih =>
    obtain ⟨trail, hfirst⟩ := effectOf_ubyte_of_rem_zero b h
    obtain ⟨trail', hrest⟩ := ih (e := { e with trail := trail }) h
    exact ⟨trail', by rw [List.map_cons, effectsOf_cons, hfirst, hrest]; rfl⟩

/-- Once the pass is complete its `UEND` does nothing. -/
theorem effectsOf_unpackSequence_of_rem_zero (f : CompressedStream) (bytes : List Byte) {e : Engine}
    (h : (effectsOf (unpackOpening f bytes) e).1.rem = 0) :
    effectsOf (unpackSequence f bytes) e = effectsOf (unpackOpening f bytes) e := by
  simp only [unpackSequence, effectsOf_append, effectsOf_cons, effectOf_uend_of_rem_zero h, effectsOf_nil,
    List.append_nil]

/-- Once the pass is complete the bytes presented later write TRAIL at most. -/
theorem effectsOf_unpackOpening_append (f : CompressedStream) (bytes later : List Byte) {e : Engine}
    (h : (effectsOf (unpackOpening f bytes) e).1.rem = 0) :
    ∃ trail, effectsOf (unpackOpening f (bytes ++ later)) e =
      ({ (effectsOf (unpackOpening f bytes) e).1 with trail := trail }, (effectsOf (unpackOpening f bytes) e).2) := by
  obtain ⟨trail, hlater⟩ := effectsOf_ubytes_of_rem_zero later h
  have hsplit : unpackOpening f (bytes ++ later) = unpackOpening f bytes ++ later.map Instr.ubyte := by
    simp [unpackOpening]
  exact ⟨trail, by rw [hsplit, effectsOf_append, hlater, List.append_nil]⟩

/-- Settles O53: where `DONE` is 1 the later bytes write TRAIL only and `UEND` nothing. -/
theorem stoppingAtDoneLosesNothing : Obligations.StoppingAtDoneLosesNothing := by
  intro s t f bytes k rest hrun hdone
  rw [run_commands decode_encode _ _ rest rfl] at hrun
  cases hrun
  have hrem : (effectsOf (unpackOpening f (bytes.take k)) s.engine).1.rem = 0 := (done_iff _).1 hdone
  obtain ⟨trail, hall⟩ := effectsOf_unpackOpening_append f (bytes.take k) (bytes.drop k) hrem
  rw [List.take_append_drop] at hall
  have hremAll : (effectsOf (unpackOpening f bytes) s.engine).1.rem = 0 := by rw [hall]; exact hrem
  refine ⟨?_, trail, ?_⟩
  · rw [run_commands decode_encode _ _ rest rfl, effectsOf_unpackSequence_of_rem_zero f _ hrem]
  · rw [run_commands decode_encode _ _ rest rfl, effectsOf_unpackSequence_of_rem_zero f _ hremAll, hall]

end Sys2Proof.Machine
end

section
/-! The payload size law (spec/20_memory.md R59): the packer loses no bit and adds none before `PFLUSH`. -/

namespace Sys2Proof.Machine

/-- The codeword of a symbol with an entry is that entry's bit-string. -/
theorem codewordOf_of_some {e : Engine} {sym : Byte} {c : EncEntry} (h : encLookup e sym = some c) :
    codewordOf e sym = c.bits := by
  simp only [codewordOf, h]

/-- A codeword reads ENC only. -/
theorem codewordOf_congr {e e' : Engine} (h : e'.enc = e.enc) : codewordOf e' = codewordOf e := by
  funext sym
  simp only [codewordOf, encLookup, h]

/-! ### The bits of one `PSYM` -/

/-- The byte that leaves and the bits that stay are the bits there were (41_pack.md R131). -/
theorem byteBits_leadingByte {e : Engine} (h : 8 < e.plen.toNat) (hb : e.pbuf.toNat < 2 ^ e.plen.toNat) :
    byteBits (leadingByte e) ++ packBits (dropLeadingByte e) = packBits e := by
  have hbyte : byteBits (leadingByte e) = strOf 8 (e.pbuf.toNat / 2 ^ (e.plen.toNat - 8)) := by
    rw [← leadingByte_toNat h hb, ← byteBits_ofNat, BitVec.ofNat_toNat, BitVec.setWidth_eq]
  rw [hbyte, packBits, dropLeadingByte_plen_toNat h, dropLeadingByte_pbuf_toNat,
    ← strOf_append 8 _ _ _ (Nat.mod_lt _ (Nat.two_pow_pos _)), Nat.mul_comm, Nat.div_add_mod, packBits]
  congr 1
  omega

/-- The emission test moves bits from the buffer to POUT (41_pack.md R131). -/
theorem emitIfOverByte_bits {e : Engine} (hb : e.pbuf.toNat < 2 ^ e.plen.toNat) :
    ∃ bytes, (emitIfOverByte e).2 = List.map Output.pout bytes ∧
      streamBits bytes ++ packBits (emitIfOverByte e).1 = packBits e := by
  rcases emitIfOverByte_cases e with ⟨-, h⟩ | ⟨hover, h⟩ <;> rw [h]
  · exact ⟨[], rfl, rfl⟩
  · exact ⟨[leadingByte e], rfl, by simpa [streamBits] using byteBits_leadingByte hover hb⟩

/-- The engine between the `PSYM`s of a pack pass: the invariant, no error, and the table the pass began with. -/
structure Packing (enc : Table EncEntry) (e : Engine) : Prop where
  inv : e.Inv
  noError : e.err = 0
  table : e.enc = enc

/-- A `PSYM` of a symbol with an entry appends its codeword to the bits emitted and waiting, and raises nothing
(41_pack.md R131). -/
theorem effectOf_psym_bits {enc : Table EncEntry} {e : Engine} {sym : Byte} (h : Packing enc e)
    (hcov : (encLookup e sym).isSome = true) :
    Packing enc (effectOf (.psym sym) e).1 ∧
      ∃ bytes, (effectOf (.psym sym) e).2 = List.map Output.pout bytes ∧
        streamBits bytes ++ packBits (effectOf (.psym sym) e).1 = packBits e ++ codewordOf e sym := by
  obtain ⟨c, hc⟩ := Option.isSome_iff_exists.1 hcov
  obtain ⟨-, hl, hv⟩ := h.inv.tables.encLegal sym c hc
  have hb := h.inv.buffers
  have heffect : effectOf (.psym sym) e = emitIfOverByte (appendCodeword c e) := by
    rw [effectOf, whenNoError_of_none _ h.noError, psymEffect, hc]
  have herr : (emitIfOverByte (appendCodeword c e)).1.err = e.err := by
    rcases emitIfOverByte_cases (appendCodeword c e) with ⟨-, h⟩ | ⟨-, h⟩ <;> rw [h] <;> rfl
  obtain ⟨-, henc, -⟩ := effectOf_keeps_tables (i := .psym sym) e (by simp) (by simp)
  obtain ⟨bytes, hout, hbits⟩ :=
    emitIfOverByte_bits (appendCodeword_live hb.plenBound hb.pbufLive hl hv)
  refine ⟨⟨effectOf_inv _ h.inv, by rw [heffect, herr, h.noError], henc.trans h.table⟩, bytes, ?_, ?_⟩
  · rw [heffect, hout]
  · rw [heffect, hbits, packBits_appendCodeword hb.plenBound hb.pbufLive hl hv, codewordOf_of_some hc]

/-! ### The bits of a pass -/

/-- After the `PSYM`s of a covered input the bits emitted and the bits waiting are, in order, the bits that waited
before and the input's codewords (20_memory.md R50). -/
theorem effectsOf_psyms_bits {enc : Table EncEntry} (syms : List Byte) {e : Engine} (h : Packing enc e)
    (hcov : e.Covers syms) :
    Packing enc (effectsOf (syms.map Instr.psym) e).1 ∧
      ∃ bytes, (effectsOf (syms.map Instr.psym) e).2 = List.map Output.pout bytes ∧
        streamBits bytes ++ packBits (effectsOf (syms.map Instr.psym) e).1 = packBits e ++ concatCodewords e syms := by
  induction syms generalizing e with
  | nil => exact ⟨h, [], rfl, by simp [streamBits, concatCodewords]⟩
  | cons sym syms ih =>
    obtain ⟨hfirst, bytes, hout, hbits⟩ := effectOf_psym_bits h (hcov sym List.mem_cons_self)
    have henc : (effectOf (.psym sym) e).1.enc = e.enc := hfirst.table.trans h.table.symm
    obtain ⟨hrest, bytes', hout', hbits'⟩ := ih hfirst fun x hx => by
      rw [encLookup, henc]; exact hcov x (List.mem_cons_of_mem sym hx)
    refine ⟨hrest, bytes ++ bytes', ?_, ?_⟩
    · rw [List.map_cons, effectsOf_cons, hout, hout', List.map_append]
    · rw [concatCodewords, codewordOf_congr henc, ← concatCodewords] at hbits'
      calc streamBits (bytes ++ bytes') ++ packBits (effectsOf ((sym :: syms).map Instr.psym) e).1
          = streamBits bytes ++ (packBits (effectOf (.psym sym) e).1 ++ concatCodewords e syms) := by
            rw [← hbits', streamBits, List.flatMap_append, List.append_assoc]; rfl
        _ = packBits e ++ concatCodewords e (sym :: syms) := by
            rw [← List.append_assoc, hbits, List.append_assoc]; rfl

/-! ### The bytes of a pass -/

@[simp] theorem poutOf_map_pout (bytes : List Byte) : poutOf (bytes.map .pout) = bytes := by simp [poutOf]

@[simp] theorem packBits_length (e : Engine) : (packBits e).length = e.plen.toNat := strOf_length _ _

/-- `PFLUSH` emits the waiting bits as whole bytes: none or one (41_pack.md R132). -/
theorem effectOf_pflush_length {e : Engine} (he : e.err = 0) (hp : e.plen.toNat ≤ 8) :
    (poutOf (effectOf .pflush e).2).length = payloadLength e.plen.toNat := by
  rw [effectOf, whenNoError_of_none _ he]
  rcases pflushEffect_cases e with ⟨h0, h⟩ | ⟨h0, h⟩ <;> rw [h]
  · rw [h0]; rfl
  · have hne : e.plen.toNat ≠ 0 := fun hz => h0 (BitVec.eq_of_toNat_eq hz)
    have hone : (poutOf [.pout (paddedByte e)]).length = 1 := rfl
    rw [hone, payloadLength]
    omega

/-- Settles O29: eight bits leave with each byte of the `PSYM`s, at most eight wait after them, and `PFLUSH` sends
those. -/
theorem payloadSizeLaw : Obligations.PayloadSizeLaw := by
  intro s syms rest hinv he hplen hcov hpending
  obtain ⟨hpack, bytes, hout, hbits⟩ := effectsOf_psyms_bits syms ⟨hinv, he, rfl⟩ hcov
  have hflush := effectOf_pflush_length hpack.noError hpack.inv.buffers.plenBound
  have hcount : 8 * bytes.length + (effectsOf (syms.map Instr.psym) s.engine).1.plen.toNat =
      (syms.map fun sym => (codewordOf s.engine sym).length).sum := by
    have hwaiting : (packBits s.engine).length = 0 := by rw [packBits_length, hplen]; rfl
    simpa only [List.length_append, streamBits_length, packBits_length, hwaiting, concatCodewords,
      List.length_flatMap, Nat.zero_add] using congrArg List.length hbits
  have hrun := run_commands decode_encode (syms.map Instr.psym ++ [Instr.pflush]) s rest hpending
  rw [List.length_append, List.length_map] at hrun
  refine ⟨_, hrun, ?_⟩
  rw [← hcount]
  simp only [effectsOf_append, effectsOf_cons, effectsOf_nil, hout, poutOf_append, poutOf_map_pout, List.append_nil,
    List.length_append, hflush, payloadLength]
  omega

end Sys2Proof.Machine
end

section
/-! The command word (spec/30_encoding.md R80 to R86): decode and encode undo each other, the four formats' masks, and
the Illegal words. -/

namespace Sys2Proof

/-- The words that decode to a command are its encoding alone (30_encoding.md R84). -/
theorem decode_eq_some_iff {w : Word} {i : Instr} : decode w = some i ↔ w = encode i :=
  ⟨fun h => (encode_of_decode h).symm, fun h => by rw [h, decode_encode]⟩

/-- Settles O1: a command's word decodes field by field, and a legal word is put together again from its fields. -/
theorem decodeAndEncodeAreInverse : Obligations.DecodeAndEncodeAreInverse :=
  ⟨decode_encode, fun _ _ => encode_of_decode⟩

/-- Settles O4 by running the decoder on each word. -/
theorem wordsWrittenOutDecode : Obligations.WordsWrittenOutDecode := by
  unfold Obligations.WordsWrittenOutDecode
  decide

/-! ### Masks: a format's mask has 0xFF in every field the format fixes (30_encoding.md R81, R82) -/

/-- A word is given by its fields (30_encoding.md R80). -/
theorem eq_wordOf_iff {w : Word} {op a b c : Byte} :
    w = wordOf op a b c ↔ opField w = op ∧ aField w = a ∧ bField w = b ∧ cField w = c := by
  conv_lhs => rw [← wordOf_fields w, wordOf_inj]

/-- A field masked with 0xFF is compared whole. -/
@[simp] theorem byte_and_0xFF (x : Byte) : x &&& 0xFF#8 = x := BitVec.and_allOnes

section Masks
variable {w : Word} {op : Byte}

/-- Format Z fixes every field. -/
theorem and_maskZ_eq_iff : w &&& wordOf 0xFF 0xFF 0xFF 0xFF = wordOf op 0 0 0 ↔ w = wordOf op 0 0 0 := by
  rw [and_eq_iff_fields]
  simp [eq_wordOf_iff]

/-- Format S leaves field A free. -/
theorem and_maskS_eq_iff : w &&& wordOf 0xFF 0 0xFF 0xFF = wordOf op 0 0 0 ↔ ∃ sym, w = wordOf op sym 0 0 := by
  rw [and_eq_iff_fields]
  simp [eq_wordOf_iff]

/-- Format V leaves field C free. -/
theorem and_maskV_eq_iff : w &&& wordOf 0xFF 0xFF 0xFF 0 = wordOf op 0 0 0 ↔ ∃ n, w = wordOf op 0 0 n := by
  rw [and_eq_iff_fields]
  simp [eq_wordOf_iff]

/-- Format E leaves fields A, B and C free. -/
theorem and_maskE_eq_iff :
    w &&& wordOf 0xFF 0 0 0 = wordOf op 0 0 0 ↔ ∃ sym len val, w = wordOf op sym len val := by
  rw [and_eq_iff_fields]
  simp [eq_wordOf_iff]

end Masks

/-- Settles O2: a command's legal words are its encodings, and its format's mask picks out just those. -/
theorem wordIsCommandWhenMaskedBitsMatch : Obligations.WordIsCommandWhenMaskedBitsMatch := by
  intro w
  simp only [decode_eq_some_iff, encode]
  exact ⟨and_maskZ_eq_iff.symm, and_maskZ_eq_iff.symm, and_maskE_eq_iff.symm, and_maskV_eq_iff.symm,
    and_maskS_eq_iff.symm, and_maskZ_eq_iff.symm, and_maskV_eq_iff.symm, and_maskZ_eq_iff.symm,
    and_maskZ_eq_iff.symm, and_maskZ_eq_iff.symm⟩

/-! ### Illegal words -/

/-- The opcodes without a command are those without a format (30_encoding.md R84). -/
theorem commandOf_eq_none_iff (op a b c : Byte) : commandOf op a b c = none ↔ formatOf op = none := by
  simp only [commandOf, formatOf, apply_ite (· = none), reduceCtorEq]

/-- A word is Illegal for its opcode, or for a nonzero field that its format does not use; format E uses every field
(30_encoding.md R81, R84 to R86). -/
theorem decode_wordOf_eq_none_iff {op a b c : Byte} :
    decode (wordOf op a b c) = none ↔
      formatOf op = none ∨
        (formatOf op = some .Z ∧ (a ≠ 0 ∨ b ≠ 0 ∨ c ≠ 0)) ∨
        (formatOf op = some .S ∧ (b ≠ 0 ∨ c ≠ 0)) ∨
        (formatOf op = some .V ∧ (a ≠ 0 ∨ b ≠ 0)) := by
  rw [decode_wordOf]
  cases hf : formatOf op with
  | none => simp
  | some f =>
    have hcommand : commandOf op a b c ≠ none := by simp [commandOf_eq_none_iff, hf]
    cases f with
    | Z | S | V => simp [hcommand, unusedFieldsZero, ← imp_iff_not_or]
    | E => simp [hcommand, unusedFieldsZero]

theorem formatOf_eq_Z_iff (op : Byte) :
    formatOf op = some .Z ↔ op = 0x00 ∨ op = 0x01 ∨ op = 0x05 ∨ op = 0x07 ∨ op = 0x08 ∨ op = 0x09 := by
  revert op; decide

theorem formatOf_eq_S_iff (op : Byte) : formatOf op = some .S ↔ op = 0x04 := by revert op; decide

theorem formatOf_eq_V_iff (op : Byte) : formatOf op = some .V ↔ op = 0x03 ∨ op = 0x06 := by revert op; decide

/-- Settles O3: the decoder's two refusals, with the opcodes of each format. -/
theorem illegalWordsAreTheReservedOnes : Obligations.IllegalWordsAreTheReservedOnes := by
  intro op a b c
  rw [decode_wordOf_eq_none_iff, formatOf_eq_none_iff, formatOf_eq_Z_iff, formatOf_eq_S_iff, formatOf_eq_V_iff]

end Sys2Proof
end

section
/-! The pseudo-commands `LDC` and `UNPK` (spec/30_encoding.md R92): what they assemble to, and the load that an `LDC`
makes. -/

namespace Sys2Proof.Machine

theorem assemble_of_wellFormed {l : SourceLine} (h : l.wellFormed = true) : assemble l = some (expandLine l) := if_pos h

/-- An operand that fits its field keeps its value there (30_encoding.md R91). -/
theorem fieldOf_toNat {n : Nat} (h : n < 256) : (fieldOf n).toNat = n := by
  rw [fieldOf, BitVec.toNat_ofNat, Nat.mod_eq_of_lt h]

/-! ### `LDC` -/

theorem ldc_wellFormed {sym : Nat} {bits : List Bool} (hsym : sym < 256) (h₁ : 1 ≤ bits.length) (h₈ : bits.length ≤ 8) :
    (SourceLine.ldc sym bits).wellFormed = true := by
  simp [SourceLine.wellFormed, fitsField, codewordLengthOk, hsym, h₁, h₈]

/-- A string of at most 8 characters has a value below 2^8. -/
theorem valueOf_lt_256 {bits : List Bool} (h₈ : bits.length ≤ 8) : valueOf bits < 256 :=
  (valueOf_lt bits).trans_le (Nat.pow_le_pow_right (by decide) h₈)

/-- A legal `LDE` with no error recorded loads its entry and emits nothing (40_control_and_table.md R113). -/
theorem exec_lde_legal {s : State} (sym : Byte) {len val : Byte} (he : s.engine.err = 0) (h₁ : 1 ≤ len.toNat)
    (h₈ : len.toNat ≤ 8) (hval : val.toNat < 2 ^ len.toNat) :
    exec (.lde sym len val) s = .next { s with engine := loadEntry sym len val s.engine } := by
  rw [exec_eq, effectOf_lde_legal sym he h₁ h₈ hval, List.append_nil]

/-- The codeword of a symbol just loaded. -/
theorem codewordOf_loadEntry_same (sym : Byte) {len : Byte} (val : Byte) (e : Engine) (h₈ : len.toNat ≤ 8) :
    codewordOf (loadEntry sym len val e) sym = strOf len.toNat val.toNat := by
  rw [codewordOf_of_some (c := ⟨len.setWidth 4, val⟩) (by rw [encLookup_loadEntry, if_pos rfl]), EncEntry.bits,
    entryLength_toNat h₈]

/-- Settles O50: the string's length and value fit their fields, pass both checks of `LDE`, and give the string back. -/
theorem ldcAssemblesToALoadThatSucceeds : Obligations.LdcAssemblesToALoadThatSucceeds := by
  intro sym bits hsym h₁ h₈
  have hlen : (fieldOf bits.length).toNat = bits.length := fieldOf_toNat (by omega)
  have hval : (fieldOf (valueOf bits)).toNat = valueOf bits := fieldOf_toNat (valueOf_lt_256 h₈)
  have hwf := ldc_wellFormed hsym h₁ h₈
  have hfits : (fieldOf (valueOf bits)).toNat < 2 ^ (fieldOf bits.length).toNat := by
    rw [hlen, hval]; exact valueOf_lt bits
  have hstr : strOf (fieldOf bits.length).toNat (fieldOf (valueOf bits)).toNat = bits := by
    rw [hlen, hval, strOf_valueOf]
  rw [← hlen] at h₁ h₈
  exact ⟨fieldOf bits.length, fieldOf (valueOf bits), assemble_of_wellFormed hwf, hstr, fun s he =>
    ⟨_, exec_lde_legal (fieldOf sym) he h₁ h₈ hfits, he,
      (codewordOf_loadEntry_same (fieldOf sym) _ s.engine h₈).trans hstr⟩⟩

/-! ### `UNPK` -/

theorem getD_map_fieldOf (stream : List Nat) (j : Nat) : (stream.map fieldOf).getD j 0 = fieldOf (stream.getD j 0) :=
  List.getD_map stream 0 fieldOf

/-- A stream that passes the checks of `UNPK` starts with N, a byte, and has the 2 + 3N bytes that the host's reader asks
for (20_memory.md R60 (2)). -/
theorem header_of_wellFormed {stream : List Nat} (h : (SourceLine.unpk stream).wellFormed = true) :
    stream.getD 0 0 < 256 ∧ 2 + 3 * stream.getD 0 0 ≤ stream.length := by
  obtain ⟨hbytes, hheader⟩ := Bool.and_eq_true_iff.1 h
  match stream, hbytes, hheader with
  | n :: _ :: body, hbytes, hheader =>
    have hn : n < 256 := of_decide_eq_true (List.all_eq_true.1 hbytes n List.mem_cons_self)
    have hbody : 3 * n ≤ body.length := of_decide_eq_true hheader
    simp only [List.getD_cons_zero, List.length_cons]
    omega

/-- Settles O51: the reader finds the whole header, whose count is the stream's first byte, and takes the stream apart at
its offsets. -/
theorem unpkAssemblesToTheUnpackSequence : Obligations.UnpkAssemblesToTheUnpackSequence := by
  intro stream hwf f
  obtain ⟨hn, hheader⟩ := header_of_wellFormed hwf
  have hcount : ((stream.map fieldOf).getD 0 0).toNat = stream.getD 0 0 := by rw [getD_map_fieldOf, fieldOf_toNat hn]
  have hread := readStream_of_le (stream := stream.map fieldOf) (by rwa [hcount, List.length_map])
  rw [assemble_of_wellFormed hwf, expandLine, unpkCommands, hread]
  simp only [unpackSequence, unpackOpening, List.map_map, Function.comp_def, tripleCommand_tripleAt_drop, hcount]
  simp only [getD_map_fieldOf, ← List.map_drop, List.map_map]
  rfl

end Sys2Proof.Machine
end

section
/-! The control commands and the one command of the code table (spec/40_control_and_table.md R110, R111, R113 to R115). -/

namespace Sys2Proof.Machine

/-! ### Commands that run always -/

/-- Settles O14: `NOP` has the empty effect and, being a control command, no gate (60_exceptions.md R174). -/
theorem nopChangesNothing : Obligations.NopChangesNothing := by
  refine ⟨by decide, fun s => ?_⟩
  rw [exec_eq, effectOf, List.append_nil]

/-- Settles O15: the effect of `CLR` is the reset engine, which is R40's table, with no output. -/
theorem clrClearsTheWholeEngine : Obligations.ClrClearsTheWholeEngine := by
  refine ⟨by decide, fun s => ?_⟩
  rw [exec_eq, effectOf, List.append_nil, Engine.reset]

/-- Settles O16: the effect of `RDSTAT` is the same engine with STATUS on RSP. -/
theorem rdstatEmitsStatus : Obligations.RdstatEmitsStatus := by
  refine ⟨by decide, fun s => ?_⟩
  rw [exec_eq, effectOf]

/-- Settles O18: the effect of `RDERR` is the same engine with EINFO on RSP. -/
theorem rderrEmitsEinfo : Obligations.RderrEmitsEinfo := by
  refine ⟨by decide, fun s => ?_⟩
  rw [exec_eq, effectOf]

/-! ### `LDE` -/

/-- The length check comes first, whatever the value is. -/
theorem ldeEffect_of_length_unsupported (w : Word) (sym : Byte) {len : Byte} (val : Byte) (e : Engine)
    (hlen : len.toNat = 0 ∨ 8 < len.toNat) :
    ldeEffect w sym len val e = (raise .unsupportedCodewordLength w e, []) := by
  rcases ldeEffect_cases w sym len val e with ⟨-, h⟩ | ⟨h₁, h₈, -⟩ | ⟨h₁, h₈, -⟩
  · exact h
  · omega
  · omega

/-- With a legal length, a value with a bit at position len or above fails the second check. -/
theorem ldeEffect_of_value_too_wide (w : Word) (sym : Byte) {len val : Byte} (e : Engine) (h₁ : 1 ≤ len.toNat)
    (h₈ : len.toNat ≤ 8) (hval : 2 ^ len.toNat ≤ val.toNat) :
    ldeEffect w sym len val e = (raise .badCodewordValue w e, []) := by
  rcases ldeEffect_cases w sym len val e with ⟨hlen, -⟩ | ⟨-, -, -, h⟩ | ⟨-, -, hfits, -⟩
  · omega
  · exact h
  · omega

/-- With no error recorded an `LDE` commits its effect on the engine and emits nothing. -/
theorem exec_lde_of_none {s : State} (sym len val : Byte) (he : s.engine.err = 0) :
    exec (.lde sym len val) s =
      .next { s with engine := (ldeEffect (encode (.lde sym len val)) sym len val s.engine).1 } := by
  rw [exec_eq, effectOf_lde_outputs, List.append_nil, effectOf, whenNoError_of_none _ he]

/-- Settles O19: the two checks of R113 in their order, each raising with the command's word; past both, the load, whose
three writes the laws of `loadEntry` read back. -/
theorem ldeLoadsOneEntry : Obligations.LdeLoadsOneEntry := by
  intro s sym len val
  refine ⟨rfl, fun he => ⟨fun hlen => ?_, fun h₁ h₈ hval => ?_, fun h₁ h₈ hval => ?_⟩⟩
  · rw [exec_lde_of_none _ _ _ he, ldeEffect_of_length_unsupported _ _ _ _ hlen]
    rfl
  · rw [exec_lde_of_none _ _ _ he, ldeEffect_of_value_too_wide _ _ _ h₁ h₈ hval]
    rfl
  · exact ⟨_, exec_lde_legal sym he h₁ h₈ hval, rfl, rfl, rfl,
      fun x => encLookup_loadEntry sym len val x s.engine,
      fun _ _ hv => decLookup_loadEntry sym s.engine hval hv,
      fun l => isCandidate_loadEntry sym val l s.engine h₁ h₈⟩

end Sys2Proof.Machine
end

section
/-! The packer (spec/41_pack.md R131, R132, R134 to R136): what one `PSYM` and one `PFLUSH` leave in the buffer and on
POUT, what they read, and the payload of a whole pass. -/

namespace Sys2Proof.Machine

/-! ### The buffer in closed form (41_pack.md R133) -/

/-- A register whose value is known is that number in its width. -/
theorem eq_ofNat_of_toNat {w n : Nat} {x : BitVec w} (h : x.toNat = n) : x = BitVec.ofNat w n := by
  rw [← h, BitVec.ofNat_toNat, BitVec.setWidth_eq]

/-- Appending a codeword shifts it in from the right. -/
theorem appendCodeword_eq {e : Engine} {c : EncEntry} (hp : e.plen.toNat ≤ 8)
    (hb : e.pbuf.toNat < 2 ^ e.plen.toNat) (hl : c.len.toNat ≤ 8) (hv : c.val.toNat < 2 ^ c.len.toNat) :
    appendCodeword c e = { e with
      pbuf := BitVec.ofNat 16 (e.pbuf.toNat * 2 ^ c.len.toNat + c.val.toNat)
      plen := BitVec.ofNat 5 (e.plen.toNat + c.len.toNat) } := by
  rw [← eq_ofNat_of_toNat (appendCodeword_pbuf_toNat hp hb hl hv),
    ← eq_ofNat_of_toNat (appendCodeword_plen_toNat hp hl)]
  rfl

/-- Sending off the leading byte keeps the last PLEN - 8 bits. -/
theorem dropLeadingByte_eq {e : Engine} (h : 8 < e.plen.toNat) :
    dropLeadingByte e = { e with
      pbuf := BitVec.ofNat 16 (e.pbuf.toNat % 2 ^ (e.plen.toNat - 8))
      plen := BitVec.ofNat 5 (e.plen.toNat - 8) } := by
  rw [← eq_ofNat_of_toNat (dropLeadingByte_plen_toNat h)]
  rfl

/-! ### One `PSYM` -/

theorem effectOf_psym_of_none {e : Engine} {sym : Byte} (he : e.err = 0) (hc : encLookup e sym = none) :
    effectOf (.psym sym) e = (raise .noCodeForSymbol (encode (.psym sym)) e, []) := by
  rw [effectOf, whenNoError_of_none _ he, psymEffect, hc]

theorem effectOf_psym_of_some {e : Engine} {sym : Byte} {c : EncEntry} (he : e.err = 0)
    (hc : encLookup e sym = some c) : effectOf (.psym sym) e = emitIfOverByte (appendCodeword c e) := by
  rw [effectOf, whenNoError_of_none _ he, psymEffect, hc]

/-- Up to eight bits wait. -/
theorem emitIfOverByte_of_le {e : Engine} (h : e.plen.toNat ≤ 8) : emitIfOverByte e = (e, []) :=
  if_neg (Nat.not_lt.2 h)

/-- More than eight bits: the oldest eight leave. -/
theorem emitIfOverByte_of_lt {e : Engine} (h : 8 < e.plen.toNat) :
    emitIfOverByte e = (dropLeadingByte e, [.pout (leadingByte e)]) := if_pos h

/-- Settles O24: no codeword raises; otherwise the buffer with the codeword appended has PLEN + len bits, which wait up
to eight of them and give their leading byte above. -/
theorem psymAppendsTheCodeword : Obligations.PsymAppendsTheCodeword := by
  intro s sym
  refine ⟨rfl, fun he => ⟨fun hc => ?_, fun c hc hp hb _ hl hv => ?_⟩⟩
  · rw [exec_eq, effectOf_psym_of_none he hc, List.append_nil]
    rfl
  · have hlen := appendCodeword_plen_toNat hp hl
    rw [exec_eq, effectOf_psym_of_some he hc]
    refine ⟨fun hle => ?_, fun hlt => ?_⟩
    · rw [emitIfOverByte_of_le (hlen.trans_le hle), appendCodeword_eq hp hb hl hv, List.append_nil]
    · have hover := hlt.trans_eq hlen.symm
      have hbyte := leadingByte_toNat hover (appendCodeword_live hp hb hl hv)
      rw [emitIfOverByte_of_lt hover, dropLeadingByte_eq hover, eq_ofNat_of_toNat hbyte,
        appendCodeword_pbuf_toNat hp hb hl hv, hlen]
      rfl

/-! ### One `PFLUSH` -/

/-- Settles O25: the two cases of R132, with the byte as a number. -/
theorem pflushEmitsWhatIsLeft : Obligations.PflushEmitsWhatIsLeft := by
  refine ⟨by decide, fun s he => ?_⟩
  rw [exec_eq, effectOf, whenNoError_of_none _ he]
  refine ⟨fun hempty => ?_, fun h₁ h₈ hb => ?_⟩
  · rw [pflushEffect, if_pos hempty, List.append_nil]
  · have hne : s.engine.plen ≠ 0 := fun h => by rw [h] at h₁; exact absurd h₁ (by decide)
    rw [pflushEffect, if_neg hne, eq_ofNat_of_toNat (paddedByte_toNat h₈ hb)]

/-! ### What the packer reads (41_pack.md R136) -/

/-- The items the packer reads, every other item at its reset value. -/
def packerPart (e : Engine) : Engine :=
  { Engine.reset with pbuf := e.pbuf, plen := e.plen, enc := e.enc, err := e.err }

@[simp] theorem packerPart_plen (e : Engine) : (packerPart e).plen = e.plen := rfl
@[simp] theorem packerPart_err (e : Engine) : (packerPart e).err = e.err := rfl
@[simp] theorem encLookup_packerPart (e : Engine) (sym : Byte) : encLookup (packerPart e) sym = encLookup e sym := rfl

theorem packerPart_eq_iff {e e' : Engine} :
    packerPart e = packerPart e' ↔ e.pbuf = e'.pbuf ∧ e.plen = e'.plen ∧ e.enc = e'.enc ∧ e.err = e'.err := by
  simp [packerPart]

/-- The emission test reads PBUF and PLEN. -/
theorem emitIfOverByte_packerPart (e : Engine) :
    Prod.map packerPart id (emitIfOverByte (packerPart e)) = Prod.map packerPart id (emitIfOverByte e) := by
  rcases emitIfOverByte_cases e with ⟨hle, h⟩ | ⟨hlt, h⟩
  · rw [h, emitIfOverByte_of_le (e := packerPart e) hle]
    rfl
  · rw [h, emitIfOverByte_of_lt (e := packerPart e) hlt]
    rfl

/-- `PSYM` reads PBUF, PLEN and ENC. -/
theorem psymEffect_packerPart (w : Word) (sym : Byte) (e : Engine) :
    Prod.map packerPart id (psymEffect w sym (packerPart e)) = Prod.map packerPart id (psymEffect w sym e) := by
  simp only [psymEffect, encLookup_packerPart]
  cases encLookup e sym with
  | none => rfl
  | some c => exact emitIfOverByte_packerPart (appendCodeword c e)

/-- `PFLUSH` reads PBUF and PLEN. -/
theorem pflushEffect_packerPart (e : Engine) :
    Prod.map packerPart id (pflushEffect (packerPart e)) = Prod.map packerPart id (pflushEffect e) := by
  by_cases h : e.plen = 0 <;> simp only [pflushEffect, packerPart_plen, h, reduceIte] <;> rfl

/-- The gate reads ERR. -/
theorem whenNoError_packerPart {f : Engine → Engine × List Output} {e : Engine}
    (hf : Prod.map packerPart id (f (packerPart e)) = Prod.map packerPart id (f e)) :
    Prod.map packerPart id (whenNoError f (packerPart e)) = Prod.map packerPart id (whenNoError f e) := by
  by_cases he : e.err = 0
  · rw [whenNoError_of_none _ he, whenNoError_of_none (e := packerPart e) _ he, hf]
  · rw [whenNoError_of_error _ he, whenNoError_of_error (e := packerPart e) _ he]
    rfl

/-- A packer command on the packer's items alone does the same to them and emits the same. -/
theorem effectOf_packerPart {i : Instr} (hi : isPacker i = true) (e : Engine) :
    Prod.map packerPart id (effectOf i (packerPart e)) = Prod.map packerPart id (effectOf i e) := by
  cases i with
  | nop | clr | lde _ _ _ | sett _ | ubyte _ | uend | rdstat | rderr => cases hi
  | psym sym => exact whenNoError_packerPart (psymEffect_packerPart _ sym e)
  | pflush => exact whenNoError_packerPart (pflushEffect_packerPart e)

/-- Settles O26: states that agree on the packer's items have the same packer part, which is all a packer command
reads. -/
theorem packerReadsOnlyItsOwnState : Obligations.PackerReadsOnlyItsOwnState := by
  intro s u i hi hpbuf hplen henc herr
  have hpart : packerPart s.engine = packerPart u.engine := packerPart_eq_iff.2 ⟨hpbuf, hplen, henc, herr⟩
  have heffect : Prod.map packerPart id (effectOf i s.engine) = Prod.map packerPart id (effectOf i u.engine) := by
    rw [← effectOf_packerPart hi, hpart, effectOf_packerPart hi]
  obtain ⟨hengine, hout⟩ := Prod.ext_iff.1 heffect
  exact ⟨_, _, (effectOf i s.engine).2, exec_eq i s, exec_eq i u, rfl, congrArg (u.out ++ ·) hout.symm,
    packerPart_eq_iff.1 hengine⟩

/-! ### Payload bytes and bits (20_memory.md R50, R54) -/

@[simp] theorem strOf_value_zero (n : Nat) : strOf n 0 = List.replicate n false := by
  induction n with
  | zero => rfl
  | succ n ih => rw [strOf, ih, Nat.zero_testBit, List.replicate_succ]

/-- Whole bytes at the front of a bit-string are the first bytes of its payload. -/
theorem payloadOf_streamBits_append (bytes : List Byte) (bits : List Bool) :
    payloadOf (streamBits bytes ++ bits) = bytes ++ payloadOf bits := by
  induction bytes with
  | nil => rfl
  | cons b bytes ih =>
    have hfront : streamBits (b :: bytes) ++ bits = byteBits b ++ (streamBits bytes ++ bits) := by
      rw [streamBits_cons, List.append_assoc]
    have hlen : 8 ≤ (byteBits b ++ (streamBits bytes ++ bits)).length := by simp
    have hfirst : payloadByte (byteBits b ++ (streamBits bytes ++ bits)) 0 = b :=
      byteBits_inj ((byteBits_payloadByte_full _ hlen).trans (List.take_left' (byteBits_length b)))
    rw [hfront, payloadOf_cons _ (by omega), hfirst, List.drop_left' (byteBits_length b), ih, List.cons_append]

/-- One to eight bits are the payload of one byte. -/
theorem payloadOf_of_le_eight {bits : List Bool} (h₁ : 1 ≤ bits.length) (h₈ : bits.length ≤ 8) :
    payloadOf bits = [payloadByte bits 0] := by
  rw [payloadOf_cons bits h₁, List.drop_of_length_le h₈, payloadOf_nil]

/-! ### The flush of a pass -/

/-- The flushed byte is the waiting bits with zeros after them (41_pack.md R132; 20_memory.md R54). -/
theorem paddedByte_eq_payloadByte {e : Engine} (h₈ : e.plen.toNat ≤ 8) (hb : e.pbuf.toNat < 2 ^ e.plen.toNat) :
    paddedByte e = payloadByte (packBits e) 0 := by
  refine byteBits_inj ?_
  have hsplit := strOf_append e.plen.toNat (8 - e.plen.toNat) e.pbuf.toNat 0 (Nat.two_pow_pos _)
  rw [Nat.add_sub_cancel' h₈, Nat.add_zero, strOf_value_zero] at hsplit
  rw [eq_ofNat_of_toNat (paddedByte_toNat h₈ hb), byteBits_ofNat, hsplit,
    byteBits_payloadByte_short _ (by rwa [packBits_length]), packBits_length, packBits]

/-- An empty buffer holds 0. -/
theorem pbuf_eq_zero {e : Engine} (hb : e.pbuf.toNat < 2 ^ e.plen.toNat) (hplen : e.plen = 0) : e.pbuf = 0 := by
  rw [hplen] at hb
  exact BitVec.eq_of_toNat_eq (Nat.lt_one_iff.1 hb)

/-- `PFLUSH` emits the payload of the waiting bits and leaves the buffer empty, whether bits wait or not. -/
theorem effectOf_pflush_payload {e : Engine} (he : e.err = 0) (hb : e.BuffersOk) :
    effectOf .pflush e = ({ e with pbuf := 0, plen := 0 }, (payloadOf (packBits e)).map Output.pout) := by
  rw [effectOf, whenNoError_of_none _ he]
  rcases pflushEffect_cases e with ⟨hempty, h⟩ | ⟨hne, h⟩ <;> rw [h]
  · have hpbuf := pbuf_eq_zero hb.pbufLive hempty
    have hbits : packBits e = [] := by rw [packBits, hempty]; rfl
    rw [hbits, ← hpbuf, ← hempty]
    rfl
  · have hpos : 1 ≤ e.plen.toNat := Nat.pos_of_ne_zero fun hz => hne (BitVec.eq_of_toNat_eq hz)
    rw [payloadOf_of_le_eight (by rwa [packBits_length]) (by rw [packBits_length]; exact hb.plenBound),
      ← paddedByte_eq_payloadByte hb.plenBound hb.pbufLive]
    rfl

/-! ### The `PSYM`s of a pass -/

/-- A `PSYM` of a symbol with a codeword never leaves the buffer empty (41_pack.md R131, R135). -/
theorem effectOf_psym_waiting {enc : Table EncEntry} {e : Engine} {sym : Byte} (h : Packing enc e)
    (hcov : (encLookup e sym).isSome = true) : 1 ≤ (effectOf (.psym sym) e).1.plen.toNat := by
  obtain ⟨c, hc⟩ := Option.isSome_iff_exists.1 hcov
  obtain ⟨h₁, hl, -⟩ := h.inv.tables.encLegal sym c hc
  have hlen := appendCodeword_plen_toNat h.inv.buffers.plenBound hl
  rw [effectOf_psym_of_some h.noError hc]
  rcases emitIfOverByte_cases (appendCodeword c e) with ⟨-, hemit⟩ | ⟨hlt, hemit⟩ <;> rw [hemit]
  · exact hlen ▸ h₁.trans (Nat.le_add_left _ _)
  · exact dropLeadingByte_plen_toNat hlt ▸ Nat.sub_pos_of_lt hlt

/-- After the `PSYM`s of a nonempty covered input at least one bit waits: the last of them leaves it. -/
theorem effectsOf_psyms_waiting {enc : Table EncEntry} {syms : List Byte} {e : Engine} (h : Packing enc e)
    (hcov : e.Covers syms) (hne : syms ≠ []) : 1 ≤ (effectsOf (syms.map Instr.psym) e).1.plen.toNat := by
  obtain ⟨init, last, rfl⟩ := List.eq_nil_or_concat' syms |>.resolve_left hne
  obtain ⟨hinit, -⟩ := effectsOf_psyms_bits init h fun sym hsym => hcov sym (List.mem_append_left _ hsym)
  have hlast : (encLookup (effectsOf (init.map Instr.psym) e).1 last).isSome = true := by
    rw [encLookup, hinit.table, ← h.table]
    exact hcov last (List.mem_append_right _ List.mem_cons_self)
  rw [List.map_append, effectsOf_append]
  exact effectOf_psym_waiting hinit hlast

/-- The packer's registers taken last are the ones that stand. -/
theorem withPackerOf_withPackerOf (p q e : Engine) : withPackerOf p (withPackerOf q e) = withPackerOf p e := rfl

/-- The `PSYM`s of a covered input write PBUF and PLEN only. -/
theorem effectsOf_psyms_engine {enc : Table EncEntry} (syms : List Byte) {e : Engine} (h : Packing enc e)
    (hcov : e.Covers syms) :
    (effectsOf (syms.map Instr.psym) e).1 = withPackerOf (effectsOf (syms.map Instr.psym) e).1 e := by
  induction syms generalizing e with
  | nil => rfl
  | cons sym syms ih =>
    obtain ⟨hfirst, -⟩ := effectOf_psym_bits h (hcov sym List.mem_cons_self)
    have hengine := effectOf_packer_engine (i := .psym sym) rfl hfirst.noError
    have hrest := ih hfirst fun x hx => by
      rw [encLookup, hfirst.table, ← h.table]; exact hcov x (List.mem_cons_of_mem sym hx)
    exact hrest.trans ((congrArg (withPackerOf _) hengine).trans (withPackerOf_withPackerOf _ _ e))

/-- From an empty buffer the bits emitted and the bits waiting are, in order, the input's codewords. -/
theorem effectsOf_psyms_of_empty {e : Engine} {syms : List Byte} (hinv : e.Inv) (he : e.err = 0) (hplen : e.plen = 0)
    (hcov : e.Covers syms) :
    Packing e.enc (effectsOf (syms.map Instr.psym) e).1 ∧
      ∃ bytes, (effectsOf (syms.map Instr.psym) e).2 = List.map Output.pout bytes ∧
        concatCodewords e syms = streamBits bytes ++ packBits (effectsOf (syms.map Instr.psym) e).1 := by
  obtain ⟨hpack, bytes, hout, hbits⟩ := effectsOf_psyms_bits syms ⟨hinv, he, rfl⟩ hcov
  have hempty : packBits e = [] := by rw [packBits, hplen]; rfl
  rw [hempty, List.nil_append] at hbits
  exact ⟨hpack, bytes, hout, hbits.symm⟩

/-- Settles O27: the bytes emitted are all whole bytes but the last 1 to 8 bits, and those wait. -/
theorem payloadLagsByOneToEightBits : Obligations.PayloadLagsByOneToEightBits := by
  intro s syms rest hinv he hplen hcov hne hpending bits
  obtain ⟨hpack, bytes, hout, (hbits : bits = _)⟩ := effectsOf_psyms_of_empty hinv he hplen hcov
  have h₁ := effectsOf_psyms_waiting ⟨hinv, he, rfl⟩ hcov hne
  have h₈ := hpack.inv.buffers.plenBound
  have hcount : (bits.length - 1) / 8 = bytes.length := by
    rw [hbits, List.length_append, streamBits_length, packBits_length]
    omega
  have hrun := run_commands decode_encode _ s rest hpending
  rw [List.length_map] at hrun
  refine ⟨_, hrun, rfl, ?_, h₁, h₈, ?_⟩
  · rw [hcount, hbits, payloadOf_streamBits_append, List.take_left' rfl, hout]
  · rw [hcount, hbits, List.drop_left' (streamBits_length bytes)]
    rfl

/-- Settles O28: whole bytes leave with the `PSYM`s and the payload of the bits that wait with `PFLUSH`; together they
are the payload of all bits, and the buffer is as empty as it was. -/
theorem packPassEmitsThePayload : Obligations.PackPassEmitsThePayload := by
  intro s syms rest hinv he hplen hcov hpending
  obtain ⟨hpack, bytes, hout, hbits⟩ := effectsOf_psyms_of_empty hinv he hplen hcov
  have hflush := effectOf_pflush_payload hpack.noError hpack.inv.buffers
  have hengine : { (effectsOf (syms.map Instr.psym) s.engine).1 with pbuf := 0, plen := 0 } = s.engine := by
    have hpbuf := pbuf_eq_zero hinv.buffers.pbufLive hplen
    rw [effectsOf_psyms_engine syms ⟨hinv, he, rfl⟩ hcov, ← hpbuf, ← hplen]
    rfl
  have hrun := run_commands decode_encode _ s rest hpending
  rw [List.length_append, List.length_map, List.length_singleton] at hrun
  rw [hbits, payloadOf_streamBits_append, List.map_append]
  simpa only [effectsOf_append, effectsOf_cons, effectsOf_nil, hflush, hengine, hout, List.append_nil] using hrun

end Sys2Proof.Machine
end

section
/-! The unpacker, one command at a time (spec/42_unpack.md R145, R150 to R154): `SETT`, `UEND`, what a `UBYTE` counts off
REM, and what a complete pass leaves alone. -/

namespace Sys2Proof.Machine

/-! ### `SETT` and `UEND` -/

/-- With no error recorded a `SETT` opens the pass (42_unpack.md R145). -/
theorem effectOf_sett (t : Byte) {e : Engine} (he : e.err = 0) :
    effectOf (.sett t) e = ({ e with rem := t, ubuf := 0, ulen := 0, trail := false }, []) :=
  whenNoError_of_none _ he

/-- With no error recorded and symbols to come, `UEND` raises `TruncatedStream` (42_unpack.md R153). -/
theorem effectOf_uend_of_rem_ne_zero {e : Engine} (he : e.err = 0) (hrem : e.rem ≠ 0) :
    effectOf .uend e = (raise .truncatedStream (encode .uend) e, []) :=
  (whenNoError_of_none _ he).trans (if_neg hrem)

/-- Settles O30: the effect of `SETT`, and `DONE` read off the new REM. -/
theorem settOpensAPass : Obligations.SettOpensAPass := by
  refine fun s t => ⟨rfl, fun he => ⟨?_, done_iff _⟩⟩
  rw [exec_eq, effectOf_sett t he, List.append_nil]

/-- Settles O34: the two cases of R153. -/
theorem uendChecksTheCount : Obligations.UendChecksTheCount := by
  have hword : encode .uend = 0x07000000 := by decide
  refine ⟨hword, fun s he => ⟨fun hrem => ?_, fun hrem => ?_⟩⟩
  · rw [exec_eq, effectOf_uend_of_rem_zero hrem, List.append_nil]
  · rw [exec_eq, effectOf_uend_of_rem_ne_zero he hrem, List.append_nil, hword]
    rfl

/-! ### `UBYTE` -/

/-- With the pass complete a byte only sets TRAIL (42_unpack.md R150 (c)). -/
theorem effectOf_ubyte_discarded (b : Byte) {e : Engine} (he : e.err = 0) (hrem : e.rem = 0) :
    effectOf (.ubyte b) e = ({ e with trail := true }, []) :=
  (whenNoError_of_none _ he).trans (if_pos hrem)

/-- With symbols to come the byte's bits are fed (42_unpack.md R150). -/
theorem effectOf_ubyte_of_rem_ne_zero (b : Byte) {e : Engine} (he : e.err = 0) (hrem : e.rem ≠ 0) :
    effectOf (.ubyte b) e = feedBits (encode (.ubyte b)) (byteBits b) e :=
  (whenNoError_of_none _ he).trans (if_neg hrem)

/-- Settles O31. -/
theorem ubyteAfterThePassOnlySetsTrail : Obligations.UbyteAfterThePassOnlySetsTrail := by
  intro s b he hrem
  rw [exec_eq, effectOf_ubyte_discarded b he hrem, List.append_nil]

/-- A `UBYTE`, discarded or not, emits at most eight symbols and counts each off REM (42_unpack.md R150, R154). -/
theorem effectOf_ubyte_count (b : Byte) (e : Engine) :
    ∃ syms, (effectOf (.ubyte b) e).2 = List.map Output.sout syms ∧
      (effectOf (.ubyte b) e).1.rem.toNat + syms.length = e.rem.toNat ∧ syms.length ≤ 8 := by
  by_cases he : e.err = 0
  · by_cases hrem : e.rem = 0
    · rw [effectOf_ubyte_discarded b he hrem]
      exact ⟨[], rfl, rfl, Nat.zero_le 8⟩
    · obtain ⟨e', syms, hfeed, -, hcount, hlen, -⟩ := feedBits_cases (encode (.ubyte b)) (byteBits b) e
      rw [effectOf_ubyte_of_rem_ne_zero b he hrem, hfeed]
      exact ⟨syms, rfl, hcount, hlen⟩
  · rw [effectOf_of_error rfl he]
    exact ⟨[], rfl, rfl, Nat.zero_le 8⟩

/-- Settles O33: the column of `UBYTE` in R26, and the count of the symbols emitted. -/
theorem ubyteCountsItsSymbolsOffRem : Obligations.UbyteCountsItsSymbolsOffRem := by
  intro s b
  obtain ⟨syms, hout, hcount, hlen⟩ := effectOf_ubyte_count b s.engine
  exact ⟨_, syms, exec_eq _ s, rfl, congrArg (s.out ++ ·) hout, effectOf_writes (.ubyte b) s.engine, hcount, hlen⟩

/-! ### A complete pass -/

theorem soutOf_effectOf_packer {i : Instr} (hi : isPacker i = true) (e : Engine) : soutOf (effectOf i e).2 = [] := by
  obtain ⟨bytes, hout⟩ := effectOf_packer_outputs hi e
  rw [hout, soutOf_map_pout]

/-- With REM = 0 no command emits a symbol: `UBYTE` is the only one that ever does (42_unpack.md R151). -/
theorem soutOf_effectOf_of_rem_zero (i : Instr) {e : Engine} (hrem : e.rem = 0) : soutOf (effectOf i e).2 = [] := by
  cases i with
  | nop | clr | rdstat | rderr => rfl
  | lde sym len val => rw [effectOf_lde_outputs]; rfl
  | psym _ | pflush => exact soutOf_effectOf_packer rfl e
  | sett t =>
    by_cases he : e.err = 0
    · rw [effectOf_sett t he]; rfl
    · rw [effectOf_of_error rfl he]; rfl
  | ubyte b => obtain ⟨trail, h⟩ := effectOf_ubyte_of_rem_zero b hrem; rw [h]; rfl
  | uend => rw [effectOf_uend_of_rem_zero hrem]; rfl

/-- With REM = 0 every command but `SETT` leaves REM at 0 (42_unpack.md R151). -/
theorem effectOf_rem_of_rem_zero {i : Instr} {e : Engine} (hsett : ∀ n, i ≠ .sett n) (hrem : e.rem = 0) :
    (effectOf i e).1.rem = 0 := by
  by_cases hclr : i = .clr
  · rw [hclr]; rfl
  by_cases hubyte : ∃ b, i = .ubyte b
  · obtain ⟨b, rfl⟩ := hubyte
    obtain ⟨trail, h⟩ := effectOf_ubyte_of_rem_zero b hrem
    rw [h]; exact hrem
  · obtain ⟨-, -, hkeep, -⟩ := effectOf_keeps_unpacker e hclr hsett fun b h => hubyte ⟨b, h⟩
    rw [hkeep, hrem]

/-- Settles O35: only a command can emit or write REM, and of the commands only `SETT` opens a pass. -/
theorem completePassEmitsNoMoreSymbols : Obligations.CompletePassEmitsNoMoreSymbols := by
  intro s t hstep hrem
  rcases step_cases hstep with ⟨-, rfl⟩ | ⟨rest, -, rfl⟩ | ⟨w, rest, i, hp, hd, hexec⟩ | ⟨w, rest, -, -, -, rfl⟩ |
    ⟨w, rest, -, -, -, rfl⟩
  · exact ⟨rfl, .inl hrem⟩
  · exact ⟨rfl, .inl rfl⟩
  · rw [exec_eq] at hexec
    cases hexec
    refine ⟨by rw [soutOf_append, soutOf_effectOf_of_rem_zero i hrem, List.append_nil], ?_⟩
    by_cases hsett : ∃ n, i = .sett n
    · obtain ⟨n, rfl⟩ := hsett
      exact .inr ⟨n, by rw [hp, encode_of_decode hd]; rfl⟩
    · exact .inl (effectOf_rem_of_rem_zero (fun n h => hsett ⟨n, h⟩) hrem)
  · exact ⟨rfl, .inl hrem⟩
  · exact ⟨rfl, .inl hrem⟩

end Sys2Proof.Machine
end

section
/-! The unpacker as a parser (spec/42_unpack.md R150 to R152, R155): between two bits the engine holds the bits not yet
taken by a codeword and the number of symbols to come. Feeding a bit moves it from the stream to the buffer and leaves
the parse of the two together as it is. -/

namespace Sys2Proof.Machine

/-! ### The state of the parse -/

/-- `e` with the bit-string `buf` waiting in UBUF and `n` symbols to come. -/
def buffering (buf : List Bool) (n : Nat) (e : Engine) : Engine :=
  { e with ubuf := BitVec.ofNat 8 (valueOf buf), ulen := BitVec.ofNat 4 buf.length, rem := BitVec.ofNat 8 n }

section Buffering
variable (buf : List Bool) (n : Nat) (e : Engine)
@[simp] theorem buffering_vlens : (buffering buf n e).vlens = e.vlens := rfl
@[simp] theorem buffering_rem : (buffering buf n e).rem = BitVec.ofNat 8 n := rfl
end Buffering

/-- Every engine with a live UBUF buffers its live bits (10_state.md R23). -/
theorem buffering_unpackBits {e : Engine} (hb : e.ubuf.toNat < 2 ^ e.ulen.toNat) :
    buffering (unpackBits e) e.rem.toNat e = e := by
  simp [buffering, unpackBits, valueOf_strOf, Nat.mod_eq_of_lt hb]

section Bits
variable {buf : List Bool} {n : Nat} {e : Engine}

/-- Symbols to come are counted by a nonzero REM. -/
theorem buffering_rem_ne_zero (h256 : n + 1 < 256) : (buffering buf (n + 1) e).rem ≠ 0 := fun h => by
  have hzero : (n + 1) % 256 = 0 := congrArg BitVec.toNat h
  omega

theorem buffering_ulen_toNat (hbuf : buf.length < 16) : (buffering buf n e).ulen.toNat = buf.length :=
  Nat.mod_eq_of_lt hbuf

theorem buffering_ubuf_toNat (hbuf : buf.length ≤ 8) : (buffering buf n e).ubuf.toNat = valueOf buf :=
  Nat.mod_eq_of_lt (valueOf_lt_256 hbuf)

/-- Shifting a bit in appends it to the buffer (10_state.md R23; 42_unpack.md R154). -/
theorem shiftIn_buffering (b : Bool) (hbuf : buf.length < 8) :
    shiftIn b (buffering buf n e) = buffering (buf ++ [b]) n e := by
  have hulen := buffering_ulen_toNat (n := n) (e := e) (buf := buf) (by omega)
  have hubuf := buffering_ubuf_toNat (n := n) (e := e) (buf := buf) (by omega)
  have hlive := (hubuf.trans_lt (valueOf_lt buf)).trans_eq (congrArg (2 ^ ·) hulen.symm)
  have hval : (shiftIn b (buffering buf n e)).ubuf.toNat = valueOf (buf ++ [b]) := by
    rw [shiftIn_ubuf_toNat b (by omega) hlive, hubuf, valueOf_append]
    cases b <;> rfl
  have hlen : (shiftIn b (buffering buf n e)).ulen.toNat = (buf ++ [b]).length := by
    rw [shiftIn_ulen_toNat b (by omega), hulen, List.length_append, List.length_singleton]
  conv_rhs => rw [buffering, ← eq_ofNat_of_toNat hval, ← eq_ofNat_of_toNat hlen]
  rfl

/-- A hit empties the buffer and counts one symbol off (42_unpack.md R150, R154). -/
theorem consumeHit_buffering : consumeHit (buffering buf (n + 1) e) = buffering [] n e := by
  have hrem : (BitVec.ofNat 8 (n + 1) - 1 : Byte) = BitVec.ofNat 8 n := by
    rw [BitVec.ofNat_add]; exact BitVec.add_sub_cancel _ _
  rw [consumeHit, buffering_rem, hrem]
  rfl

/-- The lookup compares the whole buffer with the codewords of its length; a length that is no candidate has none
(10_state.md R36 (a)). -/
theorem bufferLookup_buffering (ht : e.TablesOk) (h₁ : 1 ≤ buf.length) (h₈ : buf.length ≤ 8) :
    bufferLookup (buffering buf n e) = decLookup e buf.length (valueOf buf) := by
  have hulen := buffering_ulen_toNat (n := n) (e := e) (buf := buf) (by omega)
  have hubuf := buffering_ubuf_toNat (n := n) (e := e) h₈
  rw [bufferLookup, hulen, hubuf, buffering_vlens, Nat.mod_eq_of_lt (valueOf_lt buf)]
  by_cases hc : isCandidate e.vlens buf.length = true
  · rw [if_pos hc]; rfl
  · have hnone := mt (fun hs => (ht.candidateIffLoaded _ h₁ h₈).2 ⟨_, valueOf_lt buf, hs⟩) hc
    rw [if_neg hc, Option.not_isSome_iff_eq_none.1 hnone]

/-- A loaded codeword is no longer than `maxlen(VLENS)` (10_state.md R36 (a)). -/
theorem le_maxlen_of_decLookup {len v : Nat} {sym : Byte} (ht : e.TablesOk) (h₁ : 1 ≤ len) (h₈ : len ≤ 8)
    (hv : v < 2 ^ len) (h : decLookup e len v = some sym) : len ≤ maxlen e.vlens := by
  by_contra hgt
  rw [decLookup_eq_none ht h₁ h₈ hv (Nat.lt_of_not_le hgt)] at h
  cases h

/-! ### One bit of the parse -/

/-- The bit completes a codeword: its symbol, and the parse goes on after it. -/
theorem parse_buffer_hit {b : Bool} {rest : List Bool} {sym : Byte} (hbuf : buf.length < 8)
    (h : decLookup e (buf ++ [b]).length (valueOf (buf ++ [b])) = some sym) :
    parse e buf.length (n + 1) (buf ++ b :: rest) = Prod.map (sym :: ·) id (parse e 0 n rest) := by
  have htake : (buf ++ b :: rest).take (buf.length + 1) = buf ++ [b] := by simp [List.take_append]
  have hdrop : (buf ++ b :: rest).drop (buf.length + 1) = rest := by simp [List.drop_append]
  rw [List.length_append, List.length_singleton] at h
  rw [parse_hit hbuf (by simp) (by rw [htake, h]), hdrop]
  rfl

/-- The bit completes no codeword: it joins the bits looked up. -/
theorem parse_buffer_miss {b : Bool} {rest : List Bool} (hbuf : buf.length < 8)
    (h : decLookup e (buf ++ [b]).length (valueOf (buf ++ [b])) = none) :
    parse e buf.length (n + 1) (buf ++ b :: rest) =
      parse e (buf ++ [b]).length (n + 1) ((buf ++ [b]) ++ rest) := by
  have htake : (buf ++ b :: rest).take (buf.length + 1) = buf ++ [b] := by simp [List.take_append]
  rw [List.length_append, List.length_singleton] at h ⊢
  rw [parse_miss hbuf (by simp) (by rw [htake, h]), List.append_assoc]
  rfl

end Bits

/-! ### The bits of a byte -/

/-- `Fed w e buf n bits r`: `r` is an engine and outputs that follow the parse while the bits `bits` of a `UBYTE` with
the word `w` are fed to `buffering buf n e`. Whatever bits come after them, the symbols emitted are the first ones parsed,
and the parse goes on from what the engine holds. -/
inductive Fed (w : Word) (e : Engine) (buf : List Bool) (n : Nat) (bits : List Bool) : Engine × List Output → Prop
  /-- The last symbol came before the bits `rest` (42_unpack.md R151). -/
  | complete (syms : List Byte) (rest : List Bool) (count : syms.length = n) (short : rest.length < bits.length)
      (parsed : ∀ more, parse e buf.length n (buf ++ (bits ++ more)) = (syms, .complete (rest ++ more))) :
      Fed w e buf n bits (buffering [] 0 e, syms.map Output.sout)
  /-- All bits are taken and the bits `left` wait. -/
  | waiting (syms : List Byte) (left : List Bool) (k : Nat) (count : syms.length + (k + 1) = n)
      (room : left.length < maxlen e.vlens)
      (parsed : ∀ more, parse e buf.length n (buf ++ (bits ++ more)) =
        Prod.map (syms ++ ·) id (parse e left.length (k + 1) (left ++ more))) :
      Fed w e buf n bits (buffering left (k + 1) e, syms.map Output.sout)
  /-- The bits `left`, as many as the longest codeword has, are none, and `rest` is not looked at (42_unpack.md R152). -/
  | overflow (syms : List Byte) (left rest : List Bool) (k : Nat) (count : syms.length + (k + 1) = n)
      (full : left.length = max 1 (maxlen e.vlens))
      (parsed : ∀ more, parse e buf.length n (buf ++ (bits ++ more)) = (syms, .unknown (left ++ (rest ++ more)))) :
      Fed w e buf n bits (raise .unknownSymbolInPayload w (buffering left (k + 1) e), syms.map Output.sout)

section Feeding
variable {w : Word} {e : Engine} {buf bits : List Bool} {n : Nat} {b : Bool}

/-- A bit that completes a codeword, then the rest. -/
theorem Fed.hit {sym : Byte} {r : Engine × List Output} (hbuf : buf.length < 8)
    (h : decLookup e (buf ++ [b]).length (valueOf (buf ++ [b])) = some sym) (hr : Fed w e [] n bits r) :
    Fed w e buf (n + 1) (b :: bits) (r.1, .sout sym :: r.2) := by
  have hstep := fun more => parse_buffer_hit (n := n) (rest := bits ++ more) hbuf h
  cases hr with
  | complete syms rest count short parsed =>
    exact .complete (sym :: syms) rest (congrArg (· + 1) count) (short.trans (Nat.lt_succ_self _)) fun more =>
      (hstep more).trans (congrArg (Prod.map (sym :: ·) id) (parsed more))
  | waiting syms left k count room parsed =>
    exact .waiting (sym :: syms) left k (by rw [List.length_cons]; omega) room fun more =>
      (hstep more).trans (congrArg (Prod.map (sym :: ·) id) (parsed more))
  | overflow syms left rest k count full parsed =>
    exact .overflow (sym :: syms) left rest k (by rw [List.length_cons]; omega) full fun more =>
      (hstep more).trans (congrArg (Prod.map (sym :: ·) id) (parsed more))

/-- A bit that joins the buffer, then the rest. -/
theorem Fed.miss {r : Engine × List Output} (hbuf : buf.length < 8)
    (h : decLookup e (buf ++ [b]).length (valueOf (buf ++ [b])) = none) (hr : Fed w e (buf ++ [b]) (n + 1) bits r) :
    Fed w e buf (n + 1) (b :: bits) r := by
  have hstep := fun more => parse_buffer_miss (n := n) (rest := bits ++ more) hbuf h
  cases hr with
  | complete syms rest count short parsed =>
    exact .complete syms rest count (short.trans (Nat.lt_succ_self _)) fun more => (hstep more).trans (parsed more)
  | waiting syms left k count room parsed =>
    exact .waiting syms left k count room fun more => (hstep more).trans (parsed more)
  | overflow syms left rest k count full parsed =>
    exact .overflow syms left rest k count full fun more => (hstep more).trans (parsed more)

/-- The bits fed follow the parse. With an empty table it takes a bit to overflow, so there has to be one. -/
theorem feedBits_fed (w : Word) (ht : e.TablesOk) (bits : List Bool)
    (hbuf : buf.length < maxlen e.vlens ∨ buf = [] ∧ bits ≠ []) (h256 : n + 1 < 256) :
    Fed w e buf (n + 1) bits (feedBits w bits (buffering buf (n + 1) e)) := by
  induction bits generalizing buf n with
  | nil => exact .waiting [] buf n (Nat.zero_add _) (hbuf.resolve_right fun h => h.2 rfl) fun more => rfl
  | cons b bits ih =>
    have hmax := maxlen_le e.vlens
    obtain ⟨h₈, hroom⟩ : buf.length < 8 ∧ buf.length < max 1 (maxlen e.vlens) := by
      rcases hbuf with h | ⟨rfl, -⟩
      · omega
      · exact ⟨by decide, Nat.lt_of_lt_of_le Nat.one_pos (Nat.le_max_left _ _)⟩
    have hlen : (buf ++ [b]).length = buf.length + 1 := List.length_append
    have hrem : (buffering buf (n + 1) e).rem ≠ 0 := buffering_rem_ne_zero h256
    have hshift := shiftIn_buffering (n := n + 1) (e := e) b h₈
    have hulen : (shiftIn b (buffering buf (n + 1) e)).ulen.toNat = (buf ++ [b]).length := by
      rw [hshift, buffering_ulen_toNat (by omega)]
    have hlookup : bufferLookup (shiftIn b (buffering buf (n + 1) e)) =
        decLookup e (buf ++ [b]).length (valueOf (buf ++ [b])) := by
      rw [hshift, bufferLookup_buffering ht (by omega) (by omega)]
    cases hdec : decLookup e (buf ++ [b]).length (valueOf (buf ++ [b])) with
    | some sym =>
      rw [feedBits_hit w hrem (hlookup.trans hdec), hshift, consumeHit_buffering]
      cases n with
      | zero =>
        rw [feedBits_stop w bits (e := buffering [] 0 e) rfl]
        exact Fed.complete (buf := buf) (bits := b :: bits) [sym] bits rfl (Nat.lt_succ_self _) fun more =>
          parse_buffer_hit h₈ hdec
      | succ n =>
        have hcodeword := le_maxlen_of_decLookup ht (by omega) (by omega) (valueOf_lt _) hdec
        exact .hit h₈ hdec (ih (.inl (Nat.lt_of_lt_of_le (by simp) hcodeword)) (by omega))
    | none =>
      by_cases hover : maxlen e.vlens ≤ (buf ++ [b]).length
      · rw [feedBits_overflow w hrem (hlookup.trans hdec) (hulen ▸ hover), hshift]
        refine .miss h₈ hdec (.overflow [] (buf ++ [b]) bits n (Nat.zero_add _) (by omega) fun more => ?_)
        exact parse_unknown ht hover (by omega) (by simp)
      · rw [feedBits_wait w hrem (hlookup.trans hdec) (hulen ▸ hover), hshift]
        exact .miss h₈ hdec (ih (.inl (Nat.lt_of_not_le hover)) h256)

end Feeding

end Sys2Proof.Machine
end

section
/-! One `UBYTE` and one unpack pass as a parse (spec/42_unpack.md R150 to R155). -/

namespace Sys2Proof.Machine

/-! ### One `UBYTE` -/

/-- From a state with the invariant a `UBYTE` with symbols to come follows the parse of the waiting bits and its own. -/
theorem effectOf_ubyte_fed {e : Engine} (b : Byte) (hinv : e.Inv) (he : e.err = 0) (hrem : e.rem ≠ 0) :
    Fed (encode (.ubyte b)) e (unpackBits e) e.rem.toNat (byteBits b) (effectOf (.ubyte b) e) := by
  have hpos : 1 ≤ e.rem.toNat := Nat.pos_of_ne_zero fun h => hrem (BitVec.eq_of_toNat_eq h)
  have hbuf : (unpackBits e).length < maxlen e.vlens ∨ unpackBits e = [] ∧ byteBits b ≠ [] := by
    rcases hinv.buffers.ulenShort (he ▸ (errorCode_ne_zero _).symm) with h | h
    · exact .inr ⟨by rw [unpackBits, h]; rfl, List.cons_ne_nil _ _⟩
    · exact .inl (by rwa [unpackBits, strOf_length])
  have hfed := feedBits_fed (n := e.rem.toNat - 1) (encode (.ubyte b)) hinv.tables (byteBits b) hbuf
    (by have := e.rem.isLt; omega)
  rwa [Nat.sub_add_cancel hpos, buffering_unpackBits hinv.buffers.ubufLive,
    ← effectOf_ubyte_of_rem_ne_zero b he hrem] at hfed

/-- Settles O32: the byte's bits follow the parse to one of its three ends. -/
theorem ubyteParsesItsBits : Obligations.UbyteParsesItsBits := by
  intro s b hinv he hrem e r e'
  have hfed := effectOf_ubyte_fed b hinv he hrem
  have hr : r = parse s.engine (unpackBits s.engine).length s.engine.rem.toNat
      (unpackBits s.engine ++ (byteBits b ++ [])) := by
    rw [List.append_nil, unpackBits, strOf_length]
  rw [exec_eq]
  generalize effectOf (.ubyte b) s.engine = fed at hfed ⊢
  cases hfed with
  | complete syms rest count short parsed =>
    simp only [e', e, hr, parsed, count, Nat.sub_self]
    rfl
  | waiting syms left k count room parsed =>
    have hk : s.engine.rem.toNat - syms.length = k + 1 := by omega
    rw [parsed, List.append_nil, parse_truncated room] at hr
    simp only [e', e, hr, Prod.map, List.append_nil, id, hk]
    rfl
  | overflow syms left rest k count full parsed =>
    have hk : s.engine.rem.toNat - syms.length = k + 1 := by omega
    simp only [e', e, hr, parsed, hk, ← full, List.take_left]
    rfl

/-! ### What is left of a pass -/

/-- In the error state the data commands are discarded (60_exceptions.md R174). -/
theorem effectsOf_of_error {cmds : List Instr} {e : Engine} (hcmds : ∀ i ∈ cmds, isControl i = false)
    (he : e.err ≠ 0) : effectsOf cmds e = (e, []) := by
  induction cmds with
  | nil => rfl
  | cons i cmds ih =>
    obtain ⟨hi, hrest⟩ := List.forall_mem_cons.1 hcmds
    rw [effectsOf_cons, effectOf_of_error hi he, ih hrest]
    rfl

/-- The rest of a pass: its payload bytes still to come, and `UEND` (42_unpack.md R155). -/
def passTail (bytes : List Byte) : List Instr := bytes.map Instr.ubyte ++ [.uend]

theorem passTail_cons (b : Byte) (bytes : List Byte) : passTail (b :: bytes) = .ubyte b :: passTail bytes := rfl

theorem passTail_data (bytes : List Byte) : ∀ i ∈ passTail bytes, isControl i = false := by
  intro i hi
  rcases List.mem_append.1 hi with h | h
  · obtain ⟨b, -, rfl⟩ := List.mem_map.1 h; rfl
  · rw [List.mem_singleton.1 h]; rfl

/-- With the pass complete the bytes that are left set TRAIL, and `UEND` finds nothing missing. -/
theorem effectsOf_passTail_complete (bytes : List Byte) {e : Engine} (he : e.err = 0) (hrem : e.rem = 0) :
    effectsOf (passTail bytes) e = ({ e with trail := e.trail || decide (1 ≤ bytes.length) }, []) := by
  induction bytes generalizing e with
  | nil => simp [passTail, effectsOf_cons, effectOf_uend_of_rem_zero hrem]
  | cons b bytes ih =>
    rw [passTail_cons, effectsOf_cons, effectOf_ubyte_discarded b he hrem, ih (e := { e with trail := true }) he hrem]
    simp

/-! ### Where the parse of a pass ends -/

/-- The bits after a codeword are among the bits searched. -/
theorem shortestFrom_rest_length {e : Engine} {bits rest : List Bool} {sym : Byte} {n len : Nat}
    (h : shortestFrom e bits n len = some (sym, rest)) : rest.length ≤ bits.length := by
  induction n generalizing len with
  | zero => cases h
  | succ n ih =>
    simp only [shortestFrom] at h
    split_ifs at h
    split at h
    · cases h; simp
    · exact ih h

/-- Bits found unknown are among the bits parsed. -/
theorem parse_unknown_length {e : Engine} {start n : Nat} {bits left : List Bool}
    (h : (parse e start n bits).2 = .unknown left) : left.length ≤ bits.length := by
  induction n generalizing start bits with
  | zero => cases h
  | succ n ih =>
    simp only [parse] at h
    split at h
    · rename_i hs; exact (ih h).trans (shortestFrom_rest_length hs)
    · split_ifs at h; cases h; exact Nat.le_refl _

/-- The engine after a pass of `n` symbols whose bytes from `bytes` on, after the bits that waited, are parsed as `p`:
the three ends of R155. -/
def passEnd (e : Engine) (n : Nat) (bytes : List Byte) (p : List Byte × ParseEnd) : Engine :=
  let e' := { e with rem := BitVec.ofNat 8 (n - p.1.length) }
  match p.2 with
  | .complete left => { e' with ubuf := 0, ulen := 0, trail := e.trail || decide (8 ≤ left.length) }
  | .truncated left => { e' with
      ubuf := BitVec.ofNat 8 (valueOf left), ulen := BitVec.ofNat 4 left.length,
      err := errorCode .truncatedStream, einfo := encode .uend }
  | .unknown left => { e' with
      ubuf := BitVec.ofNat 8 (valueOf (left.take (maxlen e.vlens))), ulen := BitVec.ofNat 4 (maxlen e.vlens),
      err := errorCode .unknownSymbolInPayload,
      einfo := encode (.ubyte (bytes.getD ((8 * bytes.length - left.length + maxlen e.vlens - 1) / 8) 0)) }

/-- From the last symbol on nothing but TRAIL changes, exactly when a whole byte is left over (42_unpack.md R151). -/
theorem effectsOf_passTail_of_complete (bytes : List Byte) {e : Engine} (he : e.err = 0) {syms : List Byte} {n : Nat}
    {left : List Bool} (count : syms.length = n) (hleft : 8 ≤ left.length ↔ 1 ≤ bytes.length) (presented : List Byte) :
    effectsOf (passTail bytes) (buffering [] 0 e) = (passEnd e n presented (syms, .complete left), []) := by
  rw [effectsOf_passTail_complete bytes (e := buffering [] 0 e) he rfl]
  simp only [passEnd, hleft, count, Nat.sub_self]
  rfl

/-- Bytes and symbols that went before do not change the end of a pass. The bits that wait at `bytes` are fewer than the
longest codeword has, so an unknown codeword's last bit comes no earlier than in `bytes`. -/
theorem passEnd_later {e : Engine} {syms : List Byte} {k : Nat} {b : Byte} {bytes : List Byte}
    {p : List Byte × ParseEnd} (hleft : ∀ left, p.2 = .unknown left → left.length < 8 * bytes.length + maxlen e.vlens) :
    passEnd e (syms.length + k) (b :: bytes) (Prod.map (syms ++ ·) id p) = passEnd e k bytes p := by
  obtain ⟨later, tail⟩ := p
  have hcount : syms.length + k - (syms.length + later.length) = k - later.length := Nat.add_sub_add_left ..
  have hmax := maxlen_le e.vlens
  cases tail with
  | complete left | truncated left => simp only [passEnd, Prod.map, List.length_append, id, hcount]
  | unknown left =>
    have hbound := hleft left rfl
    have hindex : (8 * (b :: bytes).length - left.length + maxlen e.vlens - 1) / 8 =
        (8 * bytes.length - left.length + maxlen e.vlens - 1) / 8 + 1 := by
      rw [List.length_cons]; omega
    simp only [passEnd, Prod.map, List.length_append, id, hcount, hindex, List.getD_cons_succ]

/-- From bits that wait and symbols to come, the rest of a pass follows the parse. -/
theorem effectsOf_passTail {e : Engine} (ht : e.TablesOk) (he : e.err = 0) (bytes : List Byte) {buf : List Bool}
    {n : Nat} (hbuf : buf.length < maxlen e.vlens) (h256 : n + 1 < 256) :
    effectsOf (passTail bytes) (buffering buf (n + 1) e) =
      (passEnd e (n + 1) bytes (parse e buf.length (n + 1) (buf ++ streamBits bytes)),
        (parse e buf.length (n + 1) (buf ++ streamBits bytes)).1.map Output.sout) := by
  have hmax := maxlen_le e.vlens
  induction bytes generalizing buf n with
  | nil =>
    have hnil : buf ++ streamBits [] = buf := List.append_nil buf
    rw [hnil, parse_truncated hbuf]
    simp only [passTail, List.map_nil, List.nil_append, effectsOf_cons, effectsOf_nil,
      effectOf_uend_of_rem_ne_zero (e := buffering buf (n + 1) e) he (buffering_rem_ne_zero h256)]
    rfl
  | cons b bytes ih =>
    rw [passTail_cons, effectsOf_cons, streamBits_cons,
      effectOf_ubyte_of_rem_ne_zero (e := buffering buf (n + 1) e) b he (buffering_rem_ne_zero h256)]
    have hfed := feedBits_fed (encode (.ubyte b)) ht (byteBits b) (.inl hbuf) h256
    generalize feedBits (encode (.ubyte b)) (byteBits b) (buffering buf (n + 1) e) = fed at hfed ⊢
    cases hfed with
    | complete syms rest count short parsed =>
      have hleft : 8 ≤ (rest ++ streamBits bytes).length ↔ 1 ≤ bytes.length := by
        rw [byteBits_length] at short
        rw [List.length_append, streamBits_length]
        omega
      rw [parsed, effectsOf_passTail_of_complete bytes he count hleft (b :: bytes), List.append_nil]
    | waiting syms left k count room parsed =>
      rw [parsed, ih room (by omega), ← count, passEnd_later fun left' h => ?_]
      · simp only [Prod.map, List.map_append]
      · have := parse_unknown_length h
        rw [List.length_append, streamBits_length] at this
        omega
    | overflow syms left rest k count full parsed =>
      have hfull : left.length = maxlen e.vlens := by omega
      have hindex : (8 * (b :: bytes).length - (left ++ (rest ++ streamBits bytes)).length + maxlen e.vlens - 1) / 8 =
          0 := by
        simp only [List.length_cons, List.length_append, streamBits_length]
        omega
      have hk : n + 1 - syms.length = k + 1 := by omega
      rw [parsed, effectsOf_of_error (passTail_data bytes) (raise_err_ne_zero _ _ _), List.append_nil]
      simp only [passEnd, hindex, List.getD_cons_zero, hk]
      rw [← hfull, List.take_left]
      rfl

/-! ### A whole pass -/

/-- `SETT` starts the parse with nothing waiting (42_unpack.md R145). -/
theorem effectsOf_sett_cons (t : Byte) (cmds : List Instr) {e : Engine} (he : e.err = 0) :
    effectsOf (.sett t :: cmds) e = effectsOf cmds (buffering [] t.toNat { e with trail := false }) := by
  have hopen : { e with rem := t, ubuf := 0, ulen := 0, trail := false } =
      buffering [] t.toNat { e with trail := false } := by
    rw [buffering, BitVec.ofNat_toNat, BitVec.setWidth_eq]
    rfl
  rw [effectsOf_cons, effectOf_sett t he, hopen]
  rfl

/-- An unpack pass follows the parse (42_unpack.md R155). A pass of no symbols asks nothing of the table. -/
theorem effectsOf_unpackPass {e : Engine} (ht : e.TablesOk) (he : e.err = 0) (total : Byte) (bytes : List Byte)
    (hv : total ≠ 0 → e.vlens ≠ 0) :
    effectsOf (.sett total :: passTail bytes) e =
      (passEnd { e with trail := false } total.toNat bytes (parse e 0 total.toNat (streamBits bytes)),
        (parse e 0 total.toNat (streamBits bytes)).1.map Output.sout) := by
  have hparse := parse_congr (e := e) (e' := { e with trail := false }) rfl rfl 0 total.toNat (streamBits bytes)
  rw [effectsOf_sett_cons total _ he]
  by_cases h0 : total = 0
  · have hleft : 8 ≤ (streamBits bytes).length ↔ 1 ≤ bytes.length := by rw [streamBits_length]; omega
    rw [h0]
    exact effectsOf_passTail_of_complete bytes (e := { e with trail := false }) he (syms := []) rfl hleft bytes
  · have hpos : 1 ≤ total.toNat := Nat.pos_of_ne_zero fun h => h0 (BitVec.eq_of_toNat_eq h)
    have hmax : 0 < maxlen e.vlens := Nat.pos_of_ne_zero fun h => hv h0 ((maxlen_eq_zero_iff _).1 h)
    have htail := effectsOf_passTail (e := { e with trail := false }) (buf := []) (n := total.toNat - 1)
      (ht.congr rfl rfl rfl) he bytes hmax (by have := total.isLt; omega)
    rw [Nat.sub_add_cancel hpos] at htail
    rw [htail, List.length_nil, List.nil_append, hparse]

/-- An unpack pass at the head of the queue runs to its end. -/
theorem run_unpackPass {s : State} {total : Byte} {bytes : List Byte} {rest : List Input}
    (hp : s.pending = unpackInputs total bytes ++ rest) :
    Host.Core.run Sys2Proof.core (bytes.length + 2) s = .next {
      engine := (effectsOf (.sett total :: passTail bytes) s.engine).1
      pending := rest
      out := s.out ++ (effectsOf (.sett total :: passTail bytes) s.engine).2 } := by
  have hrun := run_commands decode_encode (.sett total :: passTail bytes) s rest hp
  rwa [List.length_cons, passTail, List.length_append, List.length_map, List.length_singleton] at hrun

/-- Settles O36: the pass at the level of the engine, with its three ends written out. -/
theorem unpackPassFollowsTheParse : Obligations.UnpackPassFollowsTheParse := by
  intro s total bytes rest hinv he hv hpending e m r e'
  rw [run_unpackPass hpending, effectsOf_unpackPass hinv.tables he total bytes fun _ => hv]
  change Host.Outcome.next (State.mk (passEnd { s.engine with trail := false } total.toNat bytes r) _ _) = _
  cases hr : r.2 with
  | complete left | truncated left | unknown left => simp only [passEnd, hr, Bool.false_or]; rfl

end Sys2Proof.Machine
end

section
/-! The round trip on the engine (spec/42_unpack.md R156): where no codeword starts another, the parse takes the
packed codewords apart again. -/

namespace Sys2Proof.Machine

/-! ### The parse of packed codewords -/

/-- A covered input needs a table, so there is a candidate length unless there is nothing to unpack. -/
theorem vlens_ne_zero_of_covers {e : Engine} (ht : e.TablesOk) {syms : List Byte} (hcov : e.Covers syms)
    (hne : syms ≠ []) : e.vlens ≠ 0 := by
  obtain ⟨sym, hmem⟩ := List.exists_mem_of_ne_nil syms hne
  obtain ⟨c, hc⟩ := Option.isSome_iff_exists.1 (hcov sym hmem)
  obtain ⟨h₁, h₈, hval⟩ := ht.encLegal sym c hc
  obtain ⟨_, hdec⟩ := Option.isSome_iff_exists.1 (ht.encInDec sym c hc)
  have hmax := le_maxlen_of_decLookup ht h₁ h₈ hval hdec
  exact fun h => by rw [(maxlen_eq_zero_iff _).2 h] at hmax; omega

section Table
variable {e : Engine} (ht : e.TablesOk) (hpf : e.PrefixFree) (hdec : e.DecMirrorsEnc)
include ht hpf hdec

/-- No leading part of a codeword is a codeword, and the whole decodes to its symbol (42_unpack.md R156). -/
theorem decLookup_take_codeword {sym : Byte} {c : EncEntry} (hc : encLookup e sym = some c) (len : Nat)
    (hlen : len ≤ c.len.toNat) :
    decLookup e len (valueOf (c.bits.take len)) = if len = c.len.toNat then some sym else none := by
  have hbits : c.bits.length = c.len.toNat := strOf_length _ _
  have hlt := valueOf_take_lt c.bits (hbits.symm ▸ hlen)
  split
  · rename_i heq
    refine (hdec sym len _ hlt).2 ⟨c, hc, heq.symm, ?_⟩
    obtain ⟨-, -, hval⟩ := ht.encLegal sym c hc
    rw [List.take_of_length_le (by omega), EncEntry.bits, valueOf_strOf, Nat.mod_eq_of_lt hval]
  · rename_i hne
    refine Option.eq_none_iff_forall_not_mem.2 fun other hother => hne ?_
    obtain ⟨c', hc', hl, hv⟩ := (hdec other len _ hlt).1 hother
    have hstr := strOf_valueOf (c.bits.take len)
    rw [List.length_take, Nat.min_eq_left (hbits.symm ▸ hlen)] at hstr
    have hstart : c'.bits = c.bits.take len := (congrArg₂ strOf hl hv).trans hstr
    have hsame := hpf other sym c' c hc' hc (hstart ▸ List.take_prefix len c.bits)
    rw [hsame, hc] at hc'
    cases hc'
    exact hl.symm

/-- The shortest codeword at the head of a codeword and more bits is that codeword. -/
theorem shortestFrom_codeword {sym : Byte} {c : EncEntry} (hc : encLookup e sym = some c) (more : List Bool)
    (n len : Nat) (hlen : len ≤ c.len.toNat) (hn : c.len.toNat < len + n) :
    shortestFrom e (c.bits ++ more) n len = some (sym, more) := by
  have hbits : c.bits.length = c.len.toNat := strOf_length _ _
  induction n generalizing len with
  | zero => omega
  | succ n ih =>
    have htake : (c.bits ++ more).take len = c.bits.take len := List.take_append_of_le_length (by omega)
    rw [shortestFrom, if_pos (by rw [List.length_append]; omega), htake, decLookup_take_codeword ht hpf hdec hc len hlen]
    by_cases heq : len = c.len.toNat
    · rw [if_pos heq, heq, List.drop_left' hbits]
    · rw [if_neg heq]
      exact ih (len + 1) (by omega) (by omega)

/-- The parse of an input's codewords, whatever bits come after, is the input (42_unpack.md R156). -/
theorem parse_concatCodewords {syms : List Byte} (hcov : e.Covers syms) (pad : List Bool) :
    parse e 0 syms.length (concatCodewords e syms ++ pad) = (syms, .complete pad) := by
  induction syms with
  | nil => rfl
  | cons sym syms ih =>
    obtain ⟨hsym, hrest⟩ := List.forall_mem_cons.1 hcov
    obtain ⟨c, hc⟩ := Option.isSome_iff_exists.1 hsym
    obtain ⟨h₁, h₈, -⟩ := ht.encLegal sym c hc
    have hsplit : concatCodewords e (sym :: syms) ++ pad = c.bits ++ (concatCodewords e syms ++ pad) := by
      rw [concatCodewords, List.flatMap_cons, codewordOf_of_some hc, List.append_assoc, concatCodewords]
    have hfirst : shortestFrom e (c.bits ++ (concatCodewords e syms ++ pad)) Config.maxLen 1 =
        some (sym, concatCodewords e syms ++ pad) :=
      shortestFrom_codeword ht hpf hdec hc _ _ _ h₁ (by simp only [Config.maxLen]; omega)
    simp only [hsplit, List.length_cons, parse, Nat.sub_zero, Nat.zero_add, hfirst, ih hrest]

/-! ### The unpack pass of a packed input -/

/-- The payload of a covered input unpacks to the input, with no error and nothing left. -/
theorem effectsOf_unpackPass_payload (he : e.err = 0) {syms : List Byte} (hcov : e.Covers syms)
    (hlen : syms.length ≤ 255) :
    effectsOf (.sett (BitVec.ofNat 8 syms.length) :: passTail (payloadOf (concatCodewords e syms))) e =
      ({ e with rem := 0, ubuf := 0, ulen := 0, trail := false }, syms.map Output.sout) := by
  have htotal : (BitVec.ofNat 8 syms.length).toNat = syms.length := by rw [BitVec.toNat_ofNat]; omega
  have hv : BitVec.ofNat 8 syms.length ≠ 0 → e.vlens ≠ 0 := fun h =>
    vlens_ne_zero_of_covers ht hcov fun hnil => h (by rw [hnil]; rfl)
  obtain ⟨pad, hpad, hstream⟩ := streamBits_payloadOf (concatCodewords e syms)
  rw [effectsOf_unpackPass ht he _ _ hv, htotal, hstream, parse_concatCodewords ht hpf hdec hcov]
  simp only [passEnd, Nat.sub_self, decide_eq_false (Nat.not_le.2 hpad)]
  rfl

end Table

/-- The engine-level form of `packPassEmitsThePayload`: a pack pass of a covered input leaves the engine as it was. -/
theorem effectsOf_packPass {e : Engine} {syms : List Byte} (hinv : e.Inv) (he : e.err = 0) (hplen : e.plen = 0)
    (hcov : e.Covers syms) :
    effectsOf (syms.map Instr.psym ++ [.pflush]) e =
      (e, (payloadOf (concatCodewords e syms)).map Output.pout) := by
  have hpass := packPassEmitsThePayload ⟨e, packInputs syms ++ [], []⟩ syms [] hinv he hplen hcov rfl
  have hrun := run_commands decode_encode (syms.map Instr.psym ++ [.pflush]) ⟨e, packInputs syms ++ [], []⟩ [] rfl
  rw [List.length_append, List.length_map, List.length_singleton, hpass] at hrun
  injection hrun with hstate
  exact Prod.ext (congrArg State.engine hstate).symm (congrArg State.out hstate).symm

/-- Settles O37: the bytes emitted are the payload of the codewords, whose parse is the input on any engine with the same
table. -/
theorem unpackOfPackIsTheInput : Obligations.UnpackOfPackIsTheInput := by
  intro s syms rest hinv he hplen hpf hdec hcov hlen hpending
  refine ⟨_, _, packPassEmitsThePayload s syms rest hinv he hplen hcov hpending, rfl, ?_⟩
  intro u rest' henc hdecU hvlens heU hpendingU
  have hpfU : u.engine.PrefixFree := by
    simpa only [Engine.PrefixFree, encLookup, henc] using hpf
  have hdecMU : u.engine.DecMirrorsEnc := by
    simpa only [Engine.DecMirrorsEnc, encLookup, decLookup, henc, hdecU] using hdec
  have hcovU : u.engine.Covers syms := by
    simpa only [Engine.Covers, encLookup, henc] using hcov
  have hbits : concatCodewords s.engine syms = concatCodewords u.engine syms := by
    rw [concatCodewords, concatCodewords, codewordOf_congr henc]
  have hpass := effectsOf_unpackPass_payload (hinv.tables.congr henc hdecU hvlens) hpfU hdecMU heU hcovU hlen
  rw [hbits] at hpendingU ⊢
  refine ⟨_, run_unpackPass hpendingU, ?_⟩
  rw [hpass]
  exact ⟨rfl, rfl, heU, rfl, rfl, rfl⟩

end Sys2Proof.Machine
end

section
/-! The round trip through the CompressedStream (spec/42_unpack.md R156; spec/20_memory.md R57, R60;
spec/70_reset_and_hazards.md R202, R203, R210, R211): what the loads of a good table leave, and the two command
sequences of the host. -/

namespace Sys2Proof.Machine

/-! ### Loading a header's triples -/

/-- The ENC entry of a header triple (40_control_and_table.md R113). -/
def Triple.entry (t : Triple) : EncEntry := { len := t.len.setWidth 4, val := t.val }

/-- A legal triple's entry has the triple's bit-string. -/
theorem Triple.entry_bits {t : Triple} (h₈ : t.len.toNat ≤ 8) : t.entry.bits = strOf t.len.toNat t.val.toNat := by
  rw [EncEntry.bits, entry, entryLength_toNat h₈]

/-- The engine after the triples are loaded in header order. -/
def loadAll (triples : List Triple) (e : Engine) : Engine :=
  triples.foldl (fun e t => loadEntry t.sym t.len t.val e) e

theorem loadAll_append (triples : List Triple) (t : Triple) (e : Engine) :
    loadAll (triples ++ [t]) e = loadEntry t.sym t.len t.val (loadAll triples e) := by
  rw [loadAll, List.foldl_append]
  rfl

/-- Loads leave the packer's buffer and the error alone. -/
theorem loadAll_keeps (triples : List Triple) (e : Engine) :
    (loadAll triples e).plen = e.plen ∧ (loadAll triples e).err = e.err := by
  induction triples using List.reverseRecOn with
  | nil => exact ⟨rfl, rfl⟩
  | append_singleton triples t ih => rw [loadAll_append]; exact ih

/-- Legal triples load without an error and without an output. -/
theorem effectsOf_loads {triples : List Triple} {e : Engine} (he : e.err = 0)
    (hlegal : ∀ t ∈ triples, 1 ≤ t.len.toNat ∧ t.len.toNat ≤ 8 ∧ t.val.toNat < 2 ^ t.len.toNat) :
    effectsOf (triples.map tripleCommand) e = (loadAll triples e, []) := by
  induction triples generalizing e with
  | nil => rfl
  | cons t triples ih =>
    obtain ⟨⟨h₁, h₈, hval⟩, hrest⟩ := List.forall_mem_cons.1 hlegal
    rw [List.map_cons, effectsOf_cons, tripleCommand, effectOf_lde_legal t.sym he h₁ h₈ hval,
      ih (e := loadEntry t.sym t.len t.val e) he hrest]
    rfl

/-- Any commands keep the invariant. -/
theorem effectsOf_inv (cmds : List Instr) {e : Engine} (h : e.Inv) : (effectsOf cmds e).1.Inv := by
  induction cmds generalizing e with
  | nil => exact h
  | cons i cmds ih => exact ih (effectOf_inv i h)

/-! ### What a good table leaves -/

/-- The two tables hold the triples and nothing else. -/
structure Holds (triples : List Triple) (e : Engine) : Prop where
  enc : ∀ sym c, encLookup e sym = some c ↔ ∃ t ∈ triples, t.sym = sym ∧ t.entry = c
  dec : ∀ sym len v, v < 2 ^ len → (decLookup e len v = some sym ↔
    ∃ t ∈ triples, t.sym = sym ∧ t.len.toNat = len ∧ t.val.toNat = v)

theorem reset_holds : Holds [] Engine.reset :=
  ⟨fun _ _ => by simp [encLookup, Engine.reset], fun _ _ _ _ => by simp [decLookup, Engine.reset]⟩

/-- A load of a new symbol with a new codeword adds its triple (40_control_and_table.md R113). -/
theorem Holds.load {triples : List Triple} {e : Engine} {t : Triple} (h : Holds triples e)
    (hval : t.val.toNat < 2 ^ t.len.toNat) (hsym : ∀ u ∈ triples, u.sym ≠ t.sym)
    (hcode : ∀ u ∈ triples, ¬ (u.len.toNat = t.len.toNat ∧ u.val.toNat = t.val.toNat)) :
    Holds (triples ++ [t]) (loadEntry t.sym t.len t.val e) := by
  have hfree : encLookup e t.sym = none := by
    refine Option.eq_none_iff_forall_not_mem.2 fun c hc => ?_
    obtain ⟨u, hu, hs, -⟩ := (h.enc _ _).1 hc
    exact hsym u hu hs
  have hfreeDec : decLookup e t.len.toNat t.val.toNat = none := by
    refine Option.eq_none_iff_forall_not_mem.2 fun sym hc => ?_
    obtain ⟨u, hu, -, hl, hv⟩ := (h.dec _ _ _ hval).1 hc
    exact hcode u hu ⟨hl, hv⟩
  have hadd : ∀ {p : Triple → Prop}, (∃ u ∈ triples ++ [t], p u) ↔ (∃ u ∈ triples, p u) ∨ p t := by
    simp [or_and_right, exists_or]
  refine ⟨fun sym c => ?_, fun sym len v hv => ?_⟩
  · rw [encLookup_loadEntry, hadd, ← h.enc]
    by_cases hx : sym = t.sym
    · subst sym; simp [hfree, Triple.entry]
    · simp [hx, Ne.symm hx]
  · rw [decLookup_loadEntry _ _ hval hv, hadd, ← h.dec _ _ _ hv]
    by_cases hx : len = t.len.toNat ∧ v = t.val.toNat
    · obtain ⟨rfl, rfl⟩ := hx; simp [hfreeDec]
    · have hx' : ¬ (t.len.toNat = len ∧ t.val.toNat = v) := fun h => hx ⟨h.1.symm, h.2.symm⟩
      simp [hx, hx']

theorem GoodTable.len_le {triples : List Triple} {t : Triple} (h : GoodTable triples) (ht : t ∈ triples) :
    t.len.toNat ≤ 8 := by
  obtain ⟨-, h₈, -⟩ := h.legal t ht
  exact h₈

/-- A good table stays good without its last triple, whose symbol and codeword are new to it. -/
theorem GoodTable.init {triples : List Triple} {t : Triple} (h : GoodTable (triples ++ [t])) :
    GoodTable triples ∧ (∀ u ∈ triples, u.sym ≠ t.sym) ∧
      ∀ u ∈ triples, ¬ (u.len.toNat = t.len.toNat ∧ u.val.toNat = t.val.toNat) := by
  have hleft : ∀ {u}, u ∈ triples → u ∈ triples ++ [t] := List.mem_append_left _
  obtain ⟨hnodup, -, hdisjoint⟩ := List.nodup_append.1 (List.map_append ▸ h.distinct)
  have hsym : ∀ u ∈ triples, u.sym ≠ t.sym := fun u hu =>
    hdisjoint _ (List.mem_map_of_mem hu) _ (List.mem_singleton_self _)
  refine ⟨⟨fun u hu => h.legal u (hleft hu), hnodup, fun u hu v hv => h.noPrefix u (hleft hu) v (hleft hv)⟩, hsym, ?_⟩
  rintro u hu ⟨hl, hv⟩
  have hsame := h.noPrefix u (hleft hu) t (List.mem_append_right _ (List.mem_singleton_self t)) (by rw [hl, hv])
  exact hsym u hu (congrArg Triple.sym hsame)

/-- Loading a good table into empty tables leaves its triples there (70_reset_and_hazards.md R211). -/
theorem loadAll_holds {triples : List Triple} (h : GoodTable triples) : Holds triples (loadAll triples Engine.reset) := by
  induction triples using List.reverseRecOn with
  | nil => exact reset_holds
  | append_singleton triples t ih =>
    obtain ⟨hinit, hsym, hcode⟩ := h.init
    obtain ⟨-, -, hval⟩ := h.legal t (List.mem_append_right _ (List.mem_singleton_self t))
    rw [loadAll_append]
    exact (ih hinit).load hval hsym hcode

/-- Every symbol of the header has a codeword. -/
theorem Holds.covers {triples : List Triple} {e : Engine} (h : Holds triples e) {syms : List Byte}
    (hsyms : ∀ sym ∈ syms, sym ∈ triples.map Triple.sym) : e.Covers syms := by
  intro sym hsym
  obtain ⟨t, ht, hs⟩ := List.mem_map.1 (hsyms sym hsym)
  exact Option.isSome_iff_exists.2 ⟨t.entry, (h.enc _ _).2 ⟨t, ht, hs, rfl⟩⟩

section Good
variable {triples : List Triple} {e : Engine} (h : Holds triples e) (hgood : GoodTable triples)
include h hgood

theorem Holds.prefixFree : e.PrefixFree := by
  intro s₁ s₂ c₁ c₂ h₁ h₂ hstart
  obtain ⟨t, ht, rfl, rfl⟩ := (h.enc _ _).1 h₁
  obtain ⟨u, hu, rfl, rfl⟩ := (h.enc _ _).1 h₂
  rw [Triple.entry_bits (hgood.len_le ht), Triple.entry_bits (hgood.len_le hu)] at hstart
  rw [hgood.noPrefix t ht u hu hstart]

theorem Holds.decMirrorsEnc : e.DecMirrorsEnc := by
  intro sym len v hv
  rw [h.dec sym len v hv]
  constructor
  · rintro ⟨t, ht, hs, hl, hval⟩
    exact ⟨t.entry, (h.enc _ _).2 ⟨t, ht, hs, rfl⟩, (entryLength_toNat (hgood.len_le ht)).trans hl, hval⟩
  · rintro ⟨c, hc, hl, hval⟩
    obtain ⟨t, ht, hs, rfl⟩ := (h.enc _ _).1 hc
    exact ⟨t, ht, hs, (entryLength_toNat (hgood.len_le ht)).symm.trans hl, hval⟩

end Good

/-! ### The host's two sequences -/

/-- The stream the host writes for an input: the payload is that of the codewords in the table (20_memory.md R50, R57). -/
def packedStream (triples : List Triple) (syms : List Byte) : CompressedStream where
  total := BitVec.ofNat 8 syms.length
  triples := triples
  payload := payloadOf (concatCodewords (loadAll triples Engine.reset) syms)

section Sequences
variable {triples : List Triple} (hgood : GoodTable triples)
include hgood

/-- `CLR` and the loads leave the table on a clear engine, whatever the engine was (20_memory.md R60 (1), (3)). -/
theorem effectsOf_opening (e : Engine) :
    effectsOf (.clr :: triples.map tripleCommand) e = (loadAll triples Engine.reset, []) := by
  rw [effectsOf_cons, effectOf, effectsOf_loads rfl hgood.legal]
  rfl

/-- The loaded engine meets the invariant, as any commands keep it. -/
theorem loadAll_inv : (loadAll triples Engine.reset).Inv := by
  have hinv := effectsOf_inv (.clr :: triples.map tripleCommand) reset_inv
  rwa [effectsOf_opening hgood] at hinv

variable {syms : List Byte} (hsyms : ∀ sym ∈ syms, sym ∈ triples.map Triple.sym)
include hsyms

/-- The host's pack commands emit the payload of the input (20_memory.md R60, "To pack"). -/
theorem effectsOf_packCommands (e : Engine) :
    effectsOf (packCommands triples syms) e =
      (loadAll triples Engine.reset, (packedStream triples syms).payload.map Output.pout) := by
  obtain ⟨hplen, herr⟩ := loadAll_keeps triples Engine.reset
  rw [packCommands, List.append_assoc, effectsOf_append, effectsOf_opening hgood,
    effectsOf_packPass (loadAll_inv hgood) herr hplen ((loadAll_holds hgood).covers hsyms)]
  rfl

/-- The host's unpack commands with that payload give the input back (20_memory.md R60 (1) to (6)). -/
theorem effectsOf_unpackSequence (hlen : syms.length ≤ 255) (e : Engine) :
    effectsOf (unpackSequence (packedStream triples syms) (packedStream triples syms).payload) e =
      ({ loadAll triples Engine.reset with rem := 0, ubuf := 0, ulen := 0, trail := false },
        syms.map Output.sout) := by
  have hholds := loadAll_holds hgood
  have hpass := effectsOf_unpackPass_payload (loadAll_inv hgood).tables (hholds.prefixFree hgood)
    (hholds.decMirrorsEnc hgood) (loadAll_keeps triples Engine.reset).2 (hholds.covers hsyms) hlen
  have hsplit : unpackSequence (packedStream triples syms) (packedStream triples syms).payload =
      (.clr :: triples.map tripleCommand) ++
        (.sett (BitVec.ofNat 8 syms.length) :: passTail (packedStream triples syms).payload) := by
    simp [unpackSequence, unpackOpening, passTail, packedStream]
  rw [hsplit, effectsOf_append, effectsOf_opening hgood]
  exact hpass

end Sequences

/-- An input of no symbols has no payload byte, so the host presents the whole payload in any case
(20_memory.md R60 (5)). -/
theorem hostPresents_packedStream (triples : List Triple) {syms : List Byte} (hlen : syms.length ≤ 255) :
    hostPresents (packedStream triples syms) = (packedStream triples syms).payload := by
  by_cases hzero : (packedStream triples syms).total = 0
  · have hcount : (BitVec.ofNat 8 syms.length).toNat = 0 := congrArg BitVec.toNat hzero
    rw [BitVec.toNat_ofNat, Nat.mod_eq_of_lt (by omega), List.length_eq_zero_iff] at hcount
    rw [hostPresents, if_pos hzero, hcount]
    simp [packedStream, concatCodewords]
  · rw [hostPresents, if_neg hzero]

/-- Settles O49: the pack commands emit the payload, the stream reads back as the parts it was written from, and the
unpack commands of those parts give the input. -/
theorem streamRoundTrip : Obligations.StreamRoundTrip := by
  intro s triples syms rest hgood hn hlen hsyms hpending
  obtain ⟨-, herr⟩ := loadAll_keeps triples Engine.reset
  have hpack := run_commands decode_encode _ s rest hpending
  rw [effectsOf_packCommands hgood hsyms] at hpack
  obtain ⟨header, hwrite, hread⟩ := streamReadsBack syms.length triples (packedStream triples syms).payload hlen hn
  have hcmds : unpackCommands (header ++ (packedStream triples syms).payload) =
      .ok (unpackSequence (packedStream triples syms) (packedStream triples syms).payload) := by
    rw [unpackCommands, hread]
    exact congrArg (fun bytes => Except.ok (unpackSequence _ bytes)) (hostPresents_packedStream triples hlen)
  refine ⟨_, header, _, _, hpack, rfl, herr, hwrite, hcmds, fun u rest' hpendingU => ?_⟩
  refine ⟨_, run_commands decode_encode _ u rest' hpendingU, ?_⟩
  rw [effectsOf_unpackSequence hgood hsyms hlen]
  exact ⟨rfl, herr, rfl, rfl⟩

end Sys2Proof.Machine
end

section
/-! The dispatch and the error state (spec/60_exceptions.md R173, R174, R176, R180, R182): which step records an error and
with which code and word, and which step leaves the error state. -/

namespace Sys2Proof.Machine

/-! ### The dispatch -/

/-- Settles O8: the gate discards the command, so its effect is the engine as it was and no output. -/
theorem dataCommandDiscardedInErrorState : Obligations.DataCommandDiscardedInErrorState := by
  intro s i hdata herr
  rw [exec_eq, effectOf_of_error hdata herr, List.append_nil]

/-- Settles O7: a word that decodes is executed, and in the error state a data command's execution does nothing; an
Illegal word is recorded or discarded. -/
theorem dispatchOfEveryWord : Obligations.DispatchOfEveryWord := by
  intro s w rest hpending
  refine ⟨fun i hd _ => step_command hpending hd, fun herr hdata => ?_, fun herr hd => ?_,
    fun _ i hd _ => step_command hpending hd⟩
  · cases hd : decode w with
    | none => exact (step_illegal hpending hd).trans (illegalWord_of_error w herr)
    | some i =>
      rw [step_command hpending hd]
      exact dataCommandDiscardedInErrorState { s with pending := rest } i (hdata i hd) herr
  · exact (step_illegal hpending hd).trans (illegalWord_of_none w herr)

/-- Settles O11: each of the step's four cases (no input, `rst`, a command, an Illegal word) has a next state. -/
theorem stepIsTotal : Obligations.StepIsTotal := by
  intro s
  cases hpending : s.pending with
  | nil => exact ⟨_, step_idle hpending⟩
  | cons input rest =>
    cases input with
    | rst => exact ⟨_, step_rst hpending⟩
    | word w =>
      cases hd : decode w with
      | some i => exact ⟨_, (step_command hpending hd).trans (exec_eq i _)⟩
      | none => exact ⟨_, (step_illegal hpending hd).trans (commit_eq _ _)⟩

/-! ### Recording an error -/

/-- ERR after a command: none, or the code of a kind that the engine raises. Codes 1 and 2 are the host's
(60_exceptions.md R171, R172). -/
def ErrCodeOk (e : Engine) : Prop := e.err = 0 ∨ ∃ k, 3 ≤ (errorCode k).toNat ∧ e.err = errorCode k

theorem raise_errCodeOk {k : ErrorKind} (hk : 3 ≤ (errorCode k).toNat) (w : Word) (e : Engine) : ErrCodeOk (raise k w e) :=
  .inr ⟨k, hk, rfl⟩

/-- A command that finds no error leaves none or records one that the engine raises (60_exceptions.md R171, R173). -/
theorem effectOf_errCodeOk (i : Instr) {e : Engine} (he : e.err = 0) : ErrCodeOk (effectOf i e).1 := by
  cases i with
  | nop | rdstat | rderr => exact .inl he
  | clr => exact .inl rfl
  | sett n => exact .inl ((effectOf_keeps_error e (.inl ⟨n, rfl⟩)).1.trans he)
  | pflush => exact .inl ((effectOf_keeps_error e (.inr rfl)).1.trans he)
  | lde sym len val =>
    rw [effectOf, whenNoError_of_none _ he]
    rcases ldeEffect_cases (encode (.lde sym len val)) sym len val e with
      ⟨-, h⟩ | ⟨-, -, -, h⟩ | ⟨-, -, -, h⟩ <;> rw [h]
    · exact raise_errCodeOk (by decide) _ _
    · exact raise_errCodeOk (by decide) _ _
    · exact .inl he
  | psym sym =>
    rw [effectOf, whenNoError_of_none _ he]
    rcases psymEffect_cases (encode (.psym sym)) sym e with ⟨-, h⟩ | ⟨c, -, h⟩ <;> rw [h]
    · exact raise_errCodeOk (by decide) _ _
    · rcases emitIfOverByte_cases (appendCodeword c e) with ⟨-, h⟩ | ⟨-, h⟩ <;> rw [h] <;> exact .inl he
  | ubyte b =>
    rw [effectOf, whenNoError_of_none _ he]
    rcases ubyteEffect_cases (encode (.ubyte b)) b e with ⟨-, h⟩ | ⟨-, h⟩ <;> rw [h]
    · exact .inl he
    · obtain ⟨e', syms, hfeed, -, -, -, ⟨hsame, -⟩ | ⟨herr, -⟩⟩ :=
        feedBits_cases (encode (.ubyte b)) (byteBits b) e <;> rw [hfeed]
      · exact .inl (hsame.trans he)
      · exact .inr ⟨_, by decide, herr⟩
  | uend =>
    rw [effectOf, whenNoError_of_none _ he]
    rcases uendEffect_cases (encode .uend) e with ⟨-, h⟩ | ⟨-, h⟩ <;> rw [h]
    · exact .inl he
    · exact raise_errCodeOk (by decide) _ _

/-- A command that finds no error and leaves one has recorded it with its own word (60_exceptions.md R173). -/
theorem effectOf_einfo_of_recorded {i : Instr} {e : Engine} (he : e.err = 0) (herr : (effectOf i e).1.err ≠ 0) :
    (effectOf i e).1.einfo = encode i := by
  have hclr : i ≠ .clr := by rintro rfl; exact herr rfl
  obtain ⟨hsame, -⟩ | ⟨-, -, hinfo⟩ := effectOf_error_cases e hclr
  · exact absurd (hsame.trans he) herr
  · exact hinfo

/-- A command that leaves no error leaves EINFO as it was, or is `CLR` (10_state.md R32). -/
theorem effectOf_einfo_of_none {i : Instr} {e : Engine} (herr : (effectOf i e).1.err = 0) :
    (effectOf i e).1.einfo = e.einfo ∨ (effectOf i e).1 = Engine.reset := by
  by_cases hclr : i = .clr
  · subst hclr; exact .inr rfl
  · obtain ⟨-, hinfo⟩ | ⟨-, hrecorded, -⟩ := effectOf_error_cases e hclr
    · exact .inl hinfo
    · exact absurd herr hrecorded

/-- A step that finds no error and leaves one has taken the word that EINFO now holds, and recorded an error
that the engine raises (60_exceptions.md R173). -/
theorem step_records {s t : State} (hstep : step s = .next t) (he : s.engine.err = 0) (herr : t.engine.err ≠ 0) :
    s.pending.head? = some (.word t.engine.einfo) ∧ ∃ k, 3 ≤ (errorCode k).toNat ∧ t.engine.err = errorCode k := by
  rcases step_cases hstep with ⟨-, rfl⟩ | ⟨rest, -, rfl⟩ | ⟨w, rest, i, hp, hd, hexec⟩ | ⟨w, rest, hp, -, -, rfl⟩ |
    ⟨w, rest, -, -, he', -⟩
  · exact absurd he herr
  · exact absurd rfl herr
  · rw [exec_eq] at hexec
    cases hexec
    refine ⟨?_, (effectOf_errCodeOk i he).resolve_left herr⟩
    rw [hp, effectOf_einfo_of_recorded he herr, encode_of_decode hd]
    rfl
  · exact ⟨by rw [hp]; rfl, .illegalCommand, by decide, rfl⟩
  · exact absurd he he'

/-- Settles O40: an error recorded from ERR = 0 has the step's word and the code of a kind the engine raises; with none
recorded, the word was a command, and only `CLR` writes EINFO without recording. -/
theorem raiseRecordsTheWholeWord : Obligations.RaiseRecordsTheWholeWord := by
  intro s t w rest hpending he hstep
  refine ⟨fun herr => ?_, fun herr => ?_⟩
  · obtain ⟨hhead, k, hk, hcode⟩ := step_records hstep he herr
    rw [hpending] at hhead
    cases hhead
    rw [hcode]
    exact ⟨rfl, hk, (errorCode_range k).2⟩
  · cases hd : decode w with
    | some i =>
      rw [step_command hpending hd, exec_eq] at hstep
      cases hstep
      exact effectOf_einfo_of_none herr
    | none =>
      rw [step_illegal hpending hd, illegalWord_of_none (s := { s with pending := rest }) w he] at hstep
      cases hstep
      exact absurd herr (raise_err_ne_zero _ _ _)

/-! ### Leaving the error state -/

/-- In the error state no command but `CLR` changes the engine (60_exceptions.md R174, R180). -/
theorem effectOf_engine_of_error {i : Instr} {e : Engine} (he : e.err ≠ 0) (hclr : i ≠ .clr) :
    (effectOf i e).1 = e := by
  cases hi : isControl i with
  | true => exact effectOf_control e hi hclr
  | false => rw [effectOf_of_error hi he]

/-- In the error state only the two responses leave, on RSP (60_exceptions.md R174). -/
theorem effectOf_silent_of_error (i : Instr) {e : Engine} (he : e.err ≠ 0) :
    poutOf (effectOf i e).2 = [] ∧ soutOf (effectOf i e).2 = [] := by
  cases i with
  | nop | clr | rdstat | rderr => exact ⟨rfl, rfl⟩
  | lde _ _ _ | sett _ | psym _ | pflush | ubyte _ | uend => rw [effectOf_of_error rfl he]; exact ⟨rfl, rfl⟩

/-- The word of `CLR` as the opcode table writes it (30_encoding.md R82). -/
theorem encode_clr : encode .clr = 0x01000000 := by decide

theorem ne_clr_word_of_decode {w : Word} (hd : decode w ≠ some .clr) : w ≠ 0x01000000 := by
  rintro rfl
  exact hd (decode_encode .clr)

/-- Settles O41: in the error state `CLR` and `rst` reset the engine, and every other input, or none, leaves it. -/
theorem onlyClearingLeavesTheErrorState : Obligations.OnlyClearingLeavesTheErrorState := by
  intro s t herr hstep
  rcases step_cases hstep with ⟨hp, rfl⟩ | ⟨rest, hp, rfl⟩ | ⟨w, rest, i, hp, hd, hexec⟩ | ⟨w, rest, -, -, he, -⟩ |
    ⟨w, rest, hp, hd, -, rfl⟩
  · exact ⟨rfl, rfl, .inl ⟨rfl, by simp [hp], by simp [hp]⟩⟩
  · exact ⟨rfl, rfl, .inr ⟨rfl, .inl (by simp [hp])⟩⟩
  · rw [exec_eq] at hexec
    cases hexec
    obtain ⟨hpout, hsout⟩ := effectOf_silent_of_error i herr
    refine ⟨by rw [poutOf_append, hpout, List.append_nil], by rw [soutOf_append, hsout, List.append_nil], ?_⟩
    by_cases hclr : i = .clr
    · subst hclr
      exact .inr ⟨rfl, .inr (by simp [hp, ← encode_of_decode hd, encode_clr])⟩
    · have hw : w ≠ 0x01000000 := ne_clr_word_of_decode (by simpa [hd] using hclr)
      exact .inl ⟨effectOf_engine_of_error herr hclr, by simp [hp], by simpa [hp] using hw⟩
  · exact absurd he herr
  · have hw : w ≠ 0x01000000 := ne_clr_word_of_decode (by simp [hd])
    exact ⟨rfl, rfl, .inl ⟨rfl, by simp [hp], by simpa [hp] using hw⟩⟩

/-! ### The `err` output -/

theorem errLine_eq_true_iff (e : Engine) : errLine e = true ↔ e.err ≠ 0 := by simp [errLine]

theorem errLine_eq_false_iff (e : Engine) : errLine e = false ↔ e.err = 0 := by simp [errLine]

/-- Settles O42: a rise is a step that records an error, and a fall a step that leaves the error state. -/
theorem errLineRisesOnErrorAndFallsOnClear : Obligations.ErrLineRisesOnErrorAndFallsOnClear := by
  intro s t hstep
  simp only [errLine_eq_true_iff, errLine_eq_false_iff]
  refine ⟨trivial, fun he herr => ?_, fun herr hnone => ?_⟩
  · obtain ⟨hhead, k, -, hcode⟩ := step_records hstep he herr
    exact ⟨hhead, k, hcode⟩
  · obtain ⟨-, -, ⟨hsame, -⟩ | ⟨-, hcleared⟩⟩ := onlyClearingLeavesTheErrorState s t herr hstep
    · exact absurd (hsame ▸ hnone) herr
    · rwa [encode_clr]

end Sys2Proof.Machine
end

section
/-! Reset and the hazards of the code table (spec/70_reset_and_hazards.md R200, R201, R211): later loads win, what
hardware reset leaves, and what the commands do from the reset state. -/

namespace Sys2Proof.Machine

/-! ### A symbol or a codeword loaded again (R211) -/

/-- A symbol packs with the codeword just loaded for it. -/
theorem encLookup_loadEntry_same (sym len val : Byte) (e : Engine) :
    encLookup (loadEntry sym len val e) sym = some { len := len.setWidth 4, val := val } := by
  rw [encLookup_loadEntry, if_pos rfl]

/-- A codeword decodes to the symbol it was just loaded for. -/
theorem decLookup_loadEntry_same (sym : Byte) {len val : Byte} (e : Engine) (hval : val.toNat < 2 ^ len.toNat) :
    decLookup (loadEntry sym len val e) len.toNat val.toNat = some sym := by
  rw [decLookup_loadEntry sym e hval hval, if_pos ⟨rfl, rfl⟩]

/-- What decodes to a symbol goes on decoding to it when the symbol is loaded again, with any codeword. -/
theorem decLookup_loadEntry_of_decodes {sym len val : Byte} {l v : Nat} {e : Engine} (hval : val.toNat < 2 ^ len.toNat)
    (hv : v < 2 ^ l) (h : decLookup e l v = some sym) : decLookup (loadEntry sym len val e) l v = some sym := by
  rw [decLookup_loadEntry sym e hval hv, h, ite_self]

/-- What packs to a codeword goes on packing to it when the codeword is loaded again, for any symbol. -/
theorem encLookup_loadEntry_of_packs (other : Byte) {sym len val : Byte} {e : Engine}
    (h : encLookup e sym = some { len := len.setWidth 4, val := val }) :
    encLookup (loadEntry other len val e) sym = some { len := len.setWidth 4, val := val } := by
  rw [encLookup_loadEntry, h, ite_self]

/-- Settles O21: the later load writes the shared slot of one table; in the other table the earlier load's entry is in a
slot of its own, or in the same slot with the same content. -/
theorem laterLoadWins : Obligations.LaterLoadWins := by
  refine ⟨fun s a l₁ v₁ l₂ v₂ he hmin₁ hmax₁ hv₁ hmin₂ hmax₂ hv₂ => ?_, fun s a b l v he hmin hmax hv => ?_⟩
  · exact ⟨_, _, exec_lde_legal a he hmin₁ hmax₁ hv₁, exec_lde_legal a he hmin₂ hmax₂ hv₂, he,
      encLookup_loadEntry_same a l₂ v₂ _,
      decLookup_loadEntry_of_decodes hv₂ hv₁ (decLookup_loadEntry_same a _ hv₁),
      decLookup_loadEntry_same a _ hv₂⟩
  · exact ⟨_, _, exec_lde_legal a he hmin hmax hv, exec_lde_legal b he hmin hmax hv, he,
      encLookup_loadEntry_of_packs b (encLookup_loadEntry_same a l v _),
      encLookup_loadEntry_same b l v _,
      decLookup_loadEntry_same b _ hv⟩

/-! ### The reset state (R200, R201) -/

/-- Settles O9: the step on `rst` puts the reset engine, whose items are R40's, in place of the old one. -/
theorem hardwareResetGivesResetState : Obligations.HardwareResetGivesResetState := by
  intro s rest hpending
  obtain ⟨⟨hpbuf, hplen, hubuf, hulen, hrem, -, htrail, hvlens, henc, hdec, herr, heinfo, hstatus, -⟩, hrst, -⟩ :=
    resetAndClrValues
  exact ⟨_, hrst s rest hpending, rfl, rfl, hpbuf, hplen, hubuf, hulen, hrem, htrail, hvlens, henc, hdec, herr, heinfo,
    hstatus⟩

/-- Settles O45: the reset state has no error, no codeword for any symbol, no bit waiting and no pass open, so each
command takes the branch that its own statement gives for that. -/
theorem resetEngineIsUsableButEmpty : Obligations.ResetEngineIsUsableButEmpty := by
  intro sym b
  have hnone : encLookup State.reset.engine sym = none := rfl
  obtain ⟨-, hpsym⟩ := psymAppendsTheCodeword State.reset sym
  obtain ⟨-, hpflush⟩ := pflushEmitsWhatIsLeft
  obtain ⟨-, huend⟩ := uendChecksTheCount
  exact ⟨(hpsym rfl).1 hnone, ubyteAfterThePassOnlySetsTrail State.reset b rfl rfl, (hpflush State.reset rfl).1 rfl,
    (huend State.reset rfl).1 rfl⟩

end Sys2Proof.Machine
end
